-- ==== Sys2Proof/Word.lean ====
section
/-! DEFINITION. The bit vectors of the engine. Every value is an unsigned bit vector of a stated width
(spec/00_scope.md R6); bit 0 is the least significant bit. -/

namespace Sys2Proof

/-- A byte: the accumulator, an operand, an element of the buffer, the `crc` port (R6, R10, R35). -/
abbrev Byte := BitVec 8

/-- The `cmd` port: field `op` of a command word, `W[9:8]` (R35, R38). -/
abbrev Opcode := BitVec 2

/-- A command word `W = {cmd[1:0], din[7:0]}` of 10 bits (R38). -/
abbrev CommandWord := BitVec 10

end Sys2Proof
end

