-- ==== Sys2Proof/Syntax.lean ====
section
/-! DEFINITION. The commands (one constructor for each row of spec/opcode_table.json), the input triple a host
presents at one step, what the decoder can read from it, and the spec's textual layer (listing lines and
pseudo-instructions). -/

namespace Sys2Proof

/-- The commands a word can carry (spec/30_encoding.md R37, R39). HOLD and the reserved opcode ignore the operand
field, so they carry none (R40, R41). -/
inductive Instr where
  | hold                 -- HOLD, R60
  | seed (k : Byte)      -- SEED k, R61
  | byte (c : Byte)      -- BYTE c, R62
  | reserved             -- opcode 11, R41
  deriving DecidableEq, Repr

/-- The input triple sampled at one step (R35, R110). -/
structure Pins where
  rst : Bool
  cmd : Opcode
  din : Byte
  deriving DecidableEq, Repr

/-- What a step's inputs mean: a reset, or the command of the word (R43). -/
inductive Event where
  | reset
  | command (i : Instr)
  deriving DecidableEq, Repr

/-- One row of the opcode map: a word `w` selects the row when `w &&& mask = pattern` (R39). -/
structure OpcodeRow where
  mask     : CommandWord
  pattern  : CommandWord
  mnemonic : String
  deriving DecidableEq, Repr

/-- Why a number is no command word. -/
inductive DecodeReject where
  /-- It does not fit the 10 bits of R38. -/
  | wordTooWide
  deriving DecidableEq, Repr

/-- One line of a listing: one step (R45). The reserved opcode has no spelling. -/
inductive Line where
  | hold
  | seed (k : Byte)
  | byte (c : Byte)
  | reset
  deriving DecidableEq, Repr

/-- The pseudo-instructions of R46. -/
inductive Pseudo where
  | update (k : Byte) (b : List Byte)
  | cont (b : List Byte)
  | fresh (b : List Byte)
  | nop
  deriving DecidableEq, Repr

/-- Why a line of a listing cannot be read (R45). -/
inductive ListingError where
  /-- The operand is not `0x` and two hexadecimal digits: it is not writable. -/
  | operandNotWritable
  /-- The words are no line of R45 and no pseudo-instruction of R46. -/
  | notALine
  deriving DecidableEq, Repr

end Sys2Proof
end

