-- ==== Sys2Proof/WellFormed.lean ====
section
/-! DEFINITION. What a host may present. Operand widths are in the types; the one check left is the reserved
opcode (spec/70_reset_and_hazards.md R115: "Inputs the host must not present: the reserved opcode `cmd` = 0b11
with `rst` = 0"). -/

namespace Sys2Proof

/-- A command a host may present: any but the reserved one (R41, R115). -/
def Instr.wellFormed : Instr → Bool
  | .hold => true
  | .seed _ => true
  | .byte _ => true
  | .reserved => false

/-- An input triple a host may present: with `rst` = 1 every word is allowed, since it is ignored (R106, R115). -/
def Pins.permitted (p : Pins) : Bool :=
  p.rst || p.cmd != 0b11#2

end Sys2Proof
end

