-- ==== Sys2Proof/Decode.lean ====
section
/-! DEFINITION. The decoder, total over all inputs (spec/30_encoding.md R38 to R43), then the encoder, written
from the same format. -/

namespace Sys2Proof

/-- Field `op`, `W[9:8]` (R38). -/
def opcode (w : CommandWord) : Opcode := w.extractLsb' 8 2

/-- Field `operand`, `W[7:0]`, taken as it stands (R38, R40). -/
def operand (w : CommandWord) : Byte := w.extractLsb' 0 8

/-- The word `{op, operand}` (R38). -/
def joinWord (op : Opcode) (x : Byte) : CommandWord := op ++ x

/-- The decoder's branches for `rst` = 0, in the order of R43. -/
def decodeFields (cmd : Opcode) (din : Byte) : Instr :=
  if cmd = 0b00#2 then .hold
  else if cmd = 0b01#2 then .seed din
  else if cmd = 0b10#2 then .byte din
  else .reserved

/-- The command of a word: `W[9:8]` alone selects it (R39, R42). -/
def decode (w : CommandWord) : Instr := decodeFields (opcode w) (operand w)

/-- Decode of a step's inputs: `rst` = 1 overrides the word (R43, R106). -/
def decodePins (p : Pins) : Event :=
  if p.rst then .reset else .command (decodeFields p.cmd p.din)

/-- The word on the pins (R38). -/
def Pins.word (p : Pins) : CommandWord := joinWord p.cmd p.din

/-- The pins that present the word `w` with `rst` = 0 (R38). -/
def Pins.ofWord (w : CommandWord) : Pins := { rst := false, cmd := opcode w, din := operand w }

/-- A number read as a command word; one that needs more than 10 bits is rejected (R38, log 6). -/
def decodeNat (w : Nat) : Except DecodeReject Instr :=
  if w < 1024 then .ok (decode (BitVec.ofNat 10 w)) else .error .wordTooWide

/-- The host's question: the instruction of an opcode-table word. A command word is never stored in memory and
has no byte order (R38), so the table's own numbering is the word. -/
def decodeTableWord (_nbits w : Nat) : Option Instr :=
  match decodeNat w with
  | .ok i => some i
  | .error _ => none

/-- The fields a command is written with. The operand HOLD and the reserved opcode ignore is written as zero,
which is HOLD's canonical spelling 0x000 (R40, log 7). -/
def encodeFields : Instr → Opcode × Byte
  | .hold => (0b00#2, 0x00#8)
  | .seed k => (0b01#2, k)
  | .byte c => (0b10#2, c)
  | .reserved => (0b11#2, 0x00#8)

/-- The command word of a command (R38, R39, R45). -/
def encode (i : Instr) : CommandWord := joinWord (encodeFields i).1 (encodeFields i).2

/-- The table's mnemonic of a command (spec/opcode_table.json). -/
def Instr.mnemonic : Instr → String
  | .hold => "HOLD"
  | .seed _ => "SEED"
  | .byte _ => "BYTE"
  | .reserved => "RESERVED"

/-- The opcode map, complete (R39, spec/opcode_table.json). -/
def opcodeRows : List OpcodeRow :=
  [ { mask := 0x300#10, pattern := 0x000#10, mnemonic := "HOLD" },
    { mask := 0x300#10, pattern := 0x100#10, mnemonic := "SEED" },
    { mask := 0x300#10, pattern := 0x200#10, mnemonic := "BYTE" },
    { mask := 0x300#10, pattern := 0x300#10, mnemonic := "RESERVED" } ]

/-- `w` selects `row` (R39). -/
def OpcodeRow.selectedBy (row : OpcodeRow) (w : CommandWord) : Bool := w &&& row.mask == row.pattern

end Sys2Proof
end

