-- ==== Sys2Proof/Config.lean ====
section
/-! DEFINITION. What is fixed for the machine: the algorithm parameters of spec/00_scope.md R4 (fixed by the
source, never a run-time input) and the parameters the spec adds. The numeric function has no open parameter. -/

namespace Sys2Proof

/-- `POLY`: the positions of the three exclusive-or gates, bits 2, 1 and 0 (R4, R15). -/
def Config.poly : Byte := 0x07#8

/-- `INIT`: the conventional starting value. UPDATE never applies it; the reset does (R4, C5). -/
def Config.init : Byte := 0x00#8

/-- `RESET_VALUE` = `INIT` (R105, D15). -/
def Config.resetValue : Byte := Config.init

/-- `REFIN`: input reflection, none. `inputBits_follow_refIn` ties it to the bit order of BYTE (R4, R23). -/
def Config.refIn : Bool := false

/-- `REFOUT`: output reflection, none. `crcPort_follows_output_parameters` ties it to the port (R4, R36). -/
def Config.refOut : Bool := false

/-- `XOROUT`: final exclusive-or, none (R4, R36). -/
def Config.xorOut : Byte := 0x00#8

/-- Left open by the spec: the clock cycles beyond the first that an implementation spends on one BYTE. Nothing
in Lean can evaluate it (U9, log 8). -/
opaque Config.extraCyclesPerByte : Nat

/-- `T_BYTE`, at least 1 (R111). No rule's result depends on it, and no step reads it (R116, D8). -/
def Config.tByte : Nat := Config.extraCyclesPerByte + 1

end Sys2Proof
end

