-- ==== Sys2Proof/Machine/Flags.lean ====
section
/-! DEFINITION. The engine has no flags, condition codes or carry (spec/10_state.md R14). The one computed bit is
the feedback bit, "a value computed and consumed inside one bit step; it is never stored". -/

namespace Sys2Proof.Machine

/-- Steps a and b: the current top bit, `(checksum & 0x80) != 0`, inverted if the data bit is 1: `fb = r[7] ^ d`
(spec/40_bitstep.md R50). -/
def feedbackBit (r : Byte) (d : Bool) : Bool := r.getLsbD 7 ^^ d

end Sys2Proof.Machine
end

