-- ==== Sys2Proof/Machine/Operands.lean ====
section
/-! DEFINITION. The one operand form: an 8-bit operand taken as it stands (spec/30_encoding.md R40), and the order
in which BYTE consumes the bits of its operand (spec/20_memory.md R23). -/

namespace Sys2Proof.Machine

/-- "if the corresponding bit of `c` at mask `i` is set": `(c & i) != 0` (spec/40_bitstep.md R50, R54). -/
def dataBit (c mask : Byte) : Bool := c &&& mask != 0#8

/-- The masks "from the most significant (value 0x80) down to the least significant (value 0x01), halving each
step": 8 iterations (R23, R62). -/
def bitMasks : List Byte := [0x80#8, 0x40#8, 0x20#8, 0x10#8, 0x08#8, 0x04#8, 0x02#8, 0x01#8]

/-- The bits of byte c in the order they are consumed: c[7] first, c[0] last (R23). -/
def inputBits (c : Byte) : List Bool := bitMasks.map (dataBit c)

end Sys2Proof.Machine
end

