-- ==== Sys2Proof/Machine/BitStep.lean ====
section
/-! DEFINITION. The numeric function: the micro-operation BITSTEP (spec/40_bitstep.md R50) and the byte step
(spec/41_commands.md R62). -/

namespace Sys2Proof.Machine

/-- Step c: `{r[6:0], 0}`, 8 bits, the old top bit discarded (R52). -/
def shiftLeftOne (r : Byte) : Byte := r <<< 1

/-- BITSTEP: the top bit is sampled before the shift, the polynomial applied after it (R50). -/
def bitStep (r : Byte) (d : Bool) : Byte :=
  if feedbackBit r d then shiftLeftOne r ^^^ Config.poly else shiftLeftOne r

/-- Bit steps over a sequence of data bits, first one first. -/
def bitSteps (r : Byte) (ds : List Bool) : Byte := ds.foldl bitStep r

/-- `ByteStep(r, c)`: exactly eight bit steps, most significant bit of c first (R62). R62's remark
on zero bytes is not true of its pseudocode at 0xFD; the pseudocode is followed (DEDUCED, log 15). -/
def byteStep (r c : Byte) : Byte := bitSteps r (inputBits c)

end Sys2Proof.Machine
end

