-- ==== Sys2Proof/Machine/State.lean ====
section
/-! DEFINITION. The state: the one register CRC (spec/10_state.md R10), and the input triples the host has still
to present (spec/70_reset_and_hazards.md R110, log 1). The engine has no pc, no flags, no control register, no
memory and no mode (R13 to R17, R97). -/

namespace Sys2Proof.Machine

/-- The content of register CRC. Before the first reset or SEED after power-up "a model represents this as 'not
yet written'" (R18, R107, log 3). -/
inductive Accumulator where
  | unwritten
  | holds (v : Byte)
  deriving DecidableEq, Repr

/-- The machine. -/
structure State where
  /-- Register CRC, 8 bits (R10, R11). -/
  crc    : Accumulator
  /-- The input triples of the coming steps, first one first: the model's own field (R110, log 1). -/
  inputs : List Pins
  deriving DecidableEq, Repr

/-- The hardware raises no exception (R90); the spec gives the MODEL one fault. -/
inductive Fault where
  /-- Raised by BYTE and by an observation of `crc` while CRC is unwritten (R18, R107, U4). Safe: silicon goes on
  with a value the spec does not give. -/
  | unwrittenAccumulator
  deriving DecidableEq, Repr

/-- The steps to which the model gives no meaning. -/
inductive Refusal where
  /-- Raised by an arm of exec whose instruction has no meaning yet; no arm does. Safe. -/
  | notModelled (mnemonic : String)
  /-- `refuse(ReservedOpcode)`: raised by the reserved opcode with `rst` = 0 (R41, U3). Safe: silicon does
  something the spec leaves open. -/
  | reservedOpcode
  /-- Raised by a step for which the host presents no inputs: "The run ends where the list ends" (R110, log 2).
  Safe: there is no such step. -/
  | endOfRun
  deriving DecidableEq, Repr

/-- Right after a reset step: CRC = 0x00 (R105, R108); nothing is on its way from the host (log 4). -/
def State.reset : State := { crc := .holds Config.resetValue, inputs := [] }

/-- After power-up, before the first reset or SEED: CRC has no specified value (R107). -/
def State.powerUp : State := { crc := .unwritten, inputs := [] }

end Sys2Proof.Machine
end

