-- ==== Sys2Proof/Machine/Ops.lean ====
section
/-! DEFINITION. The named operations on the state: reading and writing register CRC, the reset, the output port,
taking the next input triple; and the read of one byte of the buffer. The engine has no exception to take and none
to return from (spec/60_exceptions.md R90, R95); the reset is the one event that is not a command. -/

namespace Sys2Proof.Machine

/-- The read of CRC. Unwritten, it has no specified value and the model faults (R18, R107). -/
def State.readCrc (s : State) : Except Fault Byte :=
  match s.crc with
  | .unwritten => .error .unwrittenAccumulator
  | .holds v => .ok v

/-- `CRC <- v`: the register is written whole, never in part (R7, R11). -/
def State.writeCrc (s : State) (v : Byte) : State := { s with crc := .holds v }

/-- `CRC <- f(CRC)`: what a command does that reads CRC and writes it (R12). -/
def State.updateCrc (s : State) (f : Byte → Byte) : Host.Outcome State Fault Refusal :=
  match s.readCrc with
  | .error e => .fault e
  | .ok v => .next (s.writeCrc (f v))

/-- A reset step: `CRC <- RESET_VALUE`, "and nothing else happens" (R105). -/
def State.takeReset (s : State) : State := s.writeCrc Config.resetValue

/-- The output port `crc`: at all times the content of register CRC, not reflected, no final exclusive-or (R36).
An observation while CRC is unwritten is the model's fault (R107). -/
def State.crcPort (s : State) : Except Fault Byte := s.readCrc

/-- The input triple sampled at this step, and the state with it taken from the host's list: one per step, in
order, none read ahead, dropped or merged (R26, R29, R110). -/
def State.nextInput (s : State) : Option (Pins × State) :=
  match s.inputs with
  | [] => none
  | p :: rest => some (p, { s with inputs := rest })

/-- `MemRead(j, 1)`: the byte at index j of the buffer, j below its length. There is no other index, so the engine
never reads a byte it was not given (R7, R20, R80, R92). -/
def memRead (b : List Byte) (j : Fin b.length) : Byte := b.get j

end Sys2Proof.Machine
end

