-- ==== Sys2Proof/Machine/Commands.lean ====
section
/-! DEFINITION. The meanings of the commands (spec/41_commands.md R60 to R62; spec/30_encoding.md R41). At each of
them `rst` is 0 at the step. -/

namespace Sys2Proof.Machine

/-- HOLD: `CRC <- CRC`; an unwritten CRC stays unwritten (R60). -/
def execHold (s : State) : Host.Outcome State Fault Refusal := .next s

/-- SEED k: `CRC <- k`; the old content is not read (R61). -/
def execSeed (k : Byte) (s : State) : Host.Outcome State Fault Refusal := .next (s.writeCrc k)

/-- BYTE c: `CRC <- ByteStep(CRC, c)` (R62); an unwritten CRC faults (R107). -/
def execByte (c : Byte) (s : State) : Host.Outcome State Fault Refusal :=
  s.updateCrc fun r => byteStep r c

/-- Opcode 11: "A model gives it no meaning: the step is `refuse(ReservedOpcode)`" (R41). -/
def execReserved (_s : State) : Host.Outcome State Fault Refusal := .refused .reservedOpcode

end Sys2Proof.Machine
end

