-- ==== Sys2Proof/Machine/Dispatch.lean ====
section
/-! DEFINITION. One arm per command (spec/70_reset_and_hazards.md R110, the branches with `rst` = 0). -/

namespace Sys2Proof.Machine

def exec (i : Instr) (s : State) : Host.Outcome State Fault Refusal :=
  match i with
  | .hold => Sys2Proof.Machine.execHold s
  | .seed k => Sys2Proof.Machine.execSeed k s
  | .byte c => Sys2Proof.Machine.execByte c s
  | .reserved => Sys2Proof.Machine.execReserved s

end Sys2Proof.Machine
end

