-- ==== Sys2Proof/Machine/Edge.lean ====
section
/-! DEFINITION. One rising clock edge (spec/70_reset_and_hazards.md R110): the inputs sampled at it decide what
happens; `rst` = 1 has priority over the command word (R106). -/

namespace Sys2Proof.Machine

/-- The effect of the inputs `p` at an edge, in state `s`. -/
def clockEdge (p : Pins) (s : State) : Host.Outcome State Fault Refusal :=
  match decodePins p with
  | .reset => .next s.takeReset
  | .command i => exec i s

/-- The edge at which the host's next input triple is sampled; with none left the run has ended (R110, log 2). -/
def nextEdge (s : State) : Host.Outcome State Fault Refusal :=
  match s.nextInput with
  | none => .refused .endOfRun
  | some (p, s') => clockEdge p s'

/-- `s` with the word numbered `w`, `rst` = 0, on the pins of the very next step, in place of what the host had
planned for that step (log 6). -/
def State.presentWord (s : State) (w : Nat) : State :=
  { s with inputs := Pins.ofWord (BitVec.ofNat 10 w) :: s.inputs.tail }

end Sys2Proof.Machine
end

