-- ==== Sys2Proof/Machine/Step.lean ====
section
/-! DEFINITION. The step of the machine, and how a word comes to be its next command. The engine fetches nothing:
"the command that takes effect at a step is the one on the `cmd` and `din` ports at that step's clock edge"
(spec/20_memory.md R32). -/

namespace Sys2Proof.Machine

/-- One step (R110). -/
def step (s : State) : Host.Outcome State Fault Refusal := nextEdge s

/-- `s` with the table word `w` presented at the very next step (log 6). -/
def State.withFetchWord (s : State) (_nbits w : Nat) : State := s.presentWord w

end Sys2Proof.Machine
end

