-- ==== Sys2Proof/Algebra.lean ====
section
/-! DEFINITION. The algebraic reading of spec/00_scope.md R9: bit vectors as polynomials over GF(2). The spec marks
this reading "from general knowledge, not in source", and "no rule of this spec depends on" it; the machine does
not use it (log 14). -/

namespace Sys2Proof

open Polynomial

/-- The polynomial of a byte: bit i is the coefficient of x^i. -/
noncomputable def bytePoly (v : Byte) : (ZMod 2)[X] :=
  ∑ i ∈ Finset.range 8, if v.getLsbD i then X ^ i else 0

/-- The message polynomial of a buffer: the first byte's bits are the highest coefficients. -/
noncomputable def messagePoly : List Byte → (ZMod 2)[X]
  | [] => 0
  | c :: bs => bytePoly c * X ^ (8 * bs.length) + messagePoly bs

/-- "the divisor polynomial x^8 + x^2 + x + 1", whose x^8 term is implicit in the literal 0x07. -/
noncomputable def divisorPoly : (ZMod 2)[X] := X ^ 8 + bytePoly 0x07#8

end Sys2Proof
end

