-- ==== Sys2Proof/Machine/Update.lean ====
section
/-! DEFINITION. The transaction UPDATE, the source's one public operation, as a function (spec/42_update.md R70). -/

namespace Sys2Proof.Machine

/-- `Update(k, b)`: no initial value of its own, no final exclusive-or, no reflection, no limit on the length
(R70). R82's remark that leading zero bytes change the checksum of a non-zero seed is not true of this pseudocode at
the seed 0xFD, nor for 127 zero bytes at any seed; the pseudocode is followed (DEDUCED, log 16). -/
def update (k : Byte) : List Byte → Byte
  | [] => k
  | c :: bs => update (byteStep k c) bs

/-- "the same, as the source's loop": the bytes read by index, ascending (R70). -/
def updateLoop (k : Byte) (b : List Byte) : Byte :=
  (List.finRange b.length).foldl (fun r j => byteStep r (memRead b j)) k

/-- What a list of fragments leaves, each update's result threaded into the next (R72, R74). -/
def updateChunks (k : Byte) : List (List Byte) → Byte
  | [] => k
  | b :: rest => updateChunks (update k b) rest

/-- A buffer of n zero bytes (R82). -/
def zeros (n : Nat) : List Byte := List.replicate n 0x00#8

/-- Two buffers combined element by element with exclusive or (R82). -/
def xorBytes (b e : List Byte) : List Byte := List.zipWith (· ^^^ ·) b e

end Sys2Proof.Machine
end

