-- ==== Sys2Proof/Machine/Forms.lean ====
section
/-! DEFINITION. The other forms of the same functions that the spec gives: allowed internal structures of an
implementation (spec/00_scope.md R5). The machine runs none of them; they are stated equal to what it runs. -/

namespace Sys2Proof.Machine

/-- A byte from its bits, most significant first. -/
def byteOfBits (b7 b6 b5 b4 b3 b2 b1 b0 : Bool) : Byte :=
  BitVec.ofBool b7 ++ BitVec.ofBool b6 ++ BitVec.ofBool b5 ++ BitVec.ofBool b4 ++
    BitVec.ofBool b3 ++ BitVec.ofBool b2 ++ BitVec.ofBool b1 ++ BitVec.ofBool b0

/-- BITSTEP as a shift register with three taps (spec/40_bitstep.md R51). -/
def bitStepTaps (r : Byte) (d : Bool) : Byte :=
  let fb := r.getLsbD 7 ^^ d
  byteOfBits (r.getLsbD 6) (r.getLsbD 5) (r.getLsbD 4) (r.getLsbD 3) (r.getLsbD 2)
    (r.getLsbD 1 ^^ fb) (r.getLsbD 0 ^^ fb) fb

/-- The accumulator before a bit step, from its result and the data bit (R56, third law). -/
def bitUnstep (n : Byte) (d : Bool) : Byte :=
  let fb := n.getLsbD 0
  let m := n ^^^ (if fb then 0x07#8 else 0x00#8)
  byteOfBits (fb ^^ d) (m.getLsbD 7) (m.getLsbD 6) (m.getLsbD 5) (m.getLsbD 4)
    (m.getLsbD 3) (m.getLsbD 2) (m.getLsbD 1)

/-- A bit step on a variable that may grow past 8 bits, steps a to d as the source words them
(R50, R53). -/
def bitStepWide (x : Nat) (d : Bool) : Nat :=
  let bit := (x &&& 0x80 != 0) ^^ d
  if bit then (x <<< 1) ^^^ 0x07 else x <<< 1

/-- The byte loop's body with the source's mask after the eight bits (R53, R62). -/
def byteStepLateMask (x : Nat) (c : Byte) : Nat :=
  (inputBits c).foldl bitStepWide x &&& 0xFF

/-- The source's whole algorithm: masks after each byte and once more at the end (R53, C2). -/
def updateLateMask (x : Nat) (b : List Byte) : Nat :=
  b.foldl byteStepLateMask x &&& 0xFF

/-- The byte folded in first, then eight bit steps with data bit 0 (spec/41_commands.md R63). -/
def byteStepFolded (r c : Byte) : Byte := bitSteps (r ^^^ c) (List.replicate 8 false)

/-- One exclusive-or network: a BYTE without iteration (R64). -/
def byteStepNetwork (r c : Byte) : Byte :=
  let x := r ^^^ c
  let b := fun i : Nat => x.getLsbD i
  byteOfBits (b 7 ^^ b 6 ^^ b 5) (b 6 ^^ b 5 ^^ b 4) (b 5 ^^ b 4 ^^ b 3) (b 4 ^^ b 3 ^^ b 2)
    (b 7 ^^ b 3 ^^ b 2 ^^ b 1) (b 6 ^^ b 2 ^^ b 1 ^^ b 0) (b 6 ^^ b 1 ^^ b 0) (b 7 ^^ b 6 ^^ b 0)

/-- The columns `ByteStep(0, 1 << j)`, j = 0 to 7 (R64). -/
def networkColumns : List Byte :=
  [0x07#8, 0x0E#8, 0x1C#8, 0x38#8, 0x70#8, 0xE0#8, 0xC7#8, 0x89#8]

/-- The exclusive or of the columns at the set bits of `r ^ c` (R64). -/
def byteStepColumns (r c : Byte) : Byte :=
  (List.range 8).foldl
    (fun n j => if (r ^^^ c).getLsbD j then n ^^^ networkColumns.getD j 0#8 else n) 0#8

/-- Row 0x of the printed table (spec/95_test_vectors.md section 2.4). -/
def crcTableRow0 : List Byte :=
  [0x00#8, 0x07#8, 0x0E#8, 0x09#8, 0x1C#8, 0x1B#8, 0x12#8, 0x15#8,
   0x38#8, 0x3F#8, 0x36#8, 0x31#8, 0x24#8, 0x23#8, 0x2A#8, 0x2D#8]

/-- Row 1x of the printed table (spec/95_test_vectors.md section 2.4). -/
def crcTableRow1 : List Byte :=
  [0x70#8, 0x77#8, 0x7E#8, 0x79#8, 0x6C#8, 0x6B#8, 0x62#8, 0x65#8,
   0x48#8, 0x4F#8, 0x46#8, 0x41#8, 0x54#8, 0x53#8, 0x5A#8, 0x5D#8]

/-- Row 2x of the printed table (spec/95_test_vectors.md section 2.4). -/
def crcTableRow2 : List Byte :=
  [0xE0#8, 0xE7#8, 0xEE#8, 0xE9#8, 0xFC#8, 0xFB#8, 0xF2#8, 0xF5#8,
   0xD8#8, 0xDF#8, 0xD6#8, 0xD1#8, 0xC4#8, 0xC3#8, 0xCA#8, 0xCD#8]

/-- Row 3x of the printed table (spec/95_test_vectors.md section 2.4). -/
def crcTableRow3 : List Byte :=
  [0x90#8, 0x97#8, 0x9E#8, 0x99#8, 0x8C#8, 0x8B#8, 0x82#8, 0x85#8,
   0xA8#8, 0xAF#8, 0xA6#8, 0xA1#8, 0xB4#8, 0xB3#8, 0xBA#8, 0xBD#8]

/-- Row 4x of the printed table (spec/95_test_vectors.md section 2.4). -/
def crcTableRow4 : List Byte :=
  [0xC7#8, 0xC0#8, 0xC9#8, 0xCE#8, 0xDB#8, 0xDC#8, 0xD5#8, 0xD2#8,
   0xFF#8, 0xF8#8, 0xF1#8, 0xF6#8, 0xE3#8, 0xE4#8, 0xED#8, 0xEA#8]

/-- Row 5x of the printed table (spec/95_test_vectors.md section 2.4). -/
def crcTableRow5 : List Byte :=
  [0xB7#8, 0xB0#8, 0xB9#8, 0xBE#8, 0xAB#8, 0xAC#8, 0xA5#8, 0xA2#8,
   0x8F#8, 0x88#8, 0x81#8, 0x86#8, 0x93#8, 0x94#8, 0x9D#8, 0x9A#8]

/-- Row 6x of the printed table (spec/95_test_vectors.md section 2.4). -/
def crcTableRow6 : List Byte :=
  [0x27#8, 0x20#8, 0x29#8, 0x2E#8, 0x3B#8, 0x3C#8, 0x35#8, 0x32#8,
   0x1F#8, 0x18#8, 0x11#8, 0x16#8, 0x03#8, 0x04#8, 0x0D#8, 0x0A#8]

/-- Row 7x of the printed table (spec/95_test_vectors.md section 2.4). -/
def crcTableRow7 : List Byte :=
  [0x57#8, 0x50#8, 0x59#8, 0x5E#8, 0x4B#8, 0x4C#8, 0x45#8, 0x42#8,
   0x6F#8, 0x68#8, 0x61#8, 0x66#8, 0x73#8, 0x74#8, 0x7D#8, 0x7A#8]

/-- Row 8x of the printed table (spec/95_test_vectors.md section 2.4). -/
def crcTableRow8 : List Byte :=
  [0x89#8, 0x8E#8, 0x87#8, 0x80#8, 0x95#8, 0x92#8, 0x9B#8, 0x9C#8,
   0xB1#8, 0xB6#8, 0xBF#8, 0xB8#8, 0xAD#8, 0xAA#8, 0xA3#8, 0xA4#8]

/-- Row 9x of the printed table (spec/95_test_vectors.md section 2.4). -/
def crcTableRow9 : List Byte :=
  [0xF9#8, 0xFE#8, 0xF7#8, 0xF0#8, 0xE5#8, 0xE2#8, 0xEB#8, 0xEC#8,
   0xC1#8, 0xC6#8, 0xCF#8, 0xC8#8, 0xDD#8, 0xDA#8, 0xD3#8, 0xD4#8]

/-- Row Ax of the printed table (spec/95_test_vectors.md section 2.4). -/
def crcTableRowA : List Byte :=
  [0x69#8, 0x6E#8, 0x67#8, 0x60#8, 0x75#8, 0x72#8, 0x7B#8, 0x7C#8,
   0x51#8, 0x56#8, 0x5F#8, 0x58#8, 0x4D#8, 0x4A#8, 0x43#8, 0x44#8]

/-- Row Bx of the printed table (spec/95_test_vectors.md section 2.4). -/
def crcTableRowB : List Byte :=
  [0x19#8, 0x1E#8, 0x17#8, 0x10#8, 0x05#8, 0x02#8, 0x0B#8, 0x0C#8,
   0x21#8, 0x26#8, 0x2F#8, 0x28#8, 0x3D#8, 0x3A#8, 0x33#8, 0x34#8]

/-- Row Cx of the printed table (spec/95_test_vectors.md section 2.4). -/
def crcTableRowC : List Byte :=
  [0x4E#8, 0x49#8, 0x40#8, 0x47#8, 0x52#8, 0x55#8, 0x5C#8, 0x5B#8,
   0x76#8, 0x71#8, 0x78#8, 0x7F#8, 0x6A#8, 0x6D#8, 0x64#8, 0x63#8]

/-- Row Dx of the printed table (spec/95_test_vectors.md section 2.4). -/
def crcTableRowD : List Byte :=
  [0x3E#8, 0x39#8, 0x30#8, 0x37#8, 0x22#8, 0x25#8, 0x2C#8, 0x2B#8,
   0x06#8, 0x01#8, 0x08#8, 0x0F#8, 0x1A#8, 0x1D#8, 0x14#8, 0x13#8]

/-- Row Ex of the printed table (spec/95_test_vectors.md section 2.4). -/
def crcTableRowE : List Byte :=
  [0xAE#8, 0xA9#8, 0xA0#8, 0xA7#8, 0xB2#8, 0xB5#8, 0xBC#8, 0xBB#8,
   0x96#8, 0x91#8, 0x98#8, 0x9F#8, 0x8A#8, 0x8D#8, 0x84#8, 0x83#8]

/-- Row Fx of the printed table (spec/95_test_vectors.md section 2.4). -/
def crcTableRowF : List Byte :=
  [0xDE#8, 0xD9#8, 0xD0#8, 0xD7#8, 0xC2#8, 0xC5#8, 0xCC#8, 0xCB#8,
   0xE6#8, 0xE1#8, 0xE8#8, 0xEF#8, 0xFA#8, 0xFD#8, 0xF4#8, 0xF3#8]

/-- `T[x] = ByteStep(0x00, x)`, the printed values, x = 0 to 255 (R65). -/
def crcTable : List Byte :=
  crcTableRow0 ++ crcTableRow1 ++ crcTableRow2 ++ crcTableRow3 ++
  crcTableRow4 ++ crcTableRow5 ++ crcTableRow6 ++ crcTableRow7 ++
  crcTableRow8 ++ crcTableRow9 ++ crcTableRowA ++ crcTableRowB ++
  crcTableRowC ++ crcTableRowD ++ crcTableRowE ++ crcTableRowF

/-- The byte step by one lookup: `T[r ^ c]` (R65). -/
def byteStepTable (r c : Byte) : Byte := crcTable.getD (r ^^^ c).toNat 0#8

/-- The table form of UPDATE (spec/42_update.md R81). -/
def updateTable (k : Byte) : List Byte → Byte
  | [] => k
  | c :: bs => updateTable (crcTable.getD (k ^^^ c).toNat 0#8) bs

end Sys2Proof.Machine
end

