-- ==== Sys2Proof/Machine/Listing.lean ====
section
/-! DEFINITION. The textual layer (spec/30_encoding.md R45, R46): listing lines and the input triples they stand
for, the pseudo-instructions and their expansions, and the spelling of both. -/

namespace Sys2Proof

open Machine

/-- The input triple of a line. RESET is not a command word: a step with `rst` = 1, whose `cmd` and `din` are
ignored and written as zero here (R45, R106, log 13). -/
def Line.pins : Line → Pins
  | .hold => Pins.ofWord (encode .hold)
  | .seed k => Pins.ofWord (encode (.seed k))
  | .byte c => Pins.ofWord (encode (.byte c))
  | .reset => { rst := true, cmd := 0b00#2, din := 0x00#8 }

/-- What the decoder reads at the line's step (R43). -/
def Line.event : Line → Event
  | .hold => .command .hold
  | .seed k => .command (.seed k)
  | .byte c => .command (.byte c)
  | .reset => .reset

/-- The value of CRC after the line's step, from the value v before it: the branches of R110. -/
def Line.effect (v : Byte) : Line → Byte
  | .hold => v
  | .seed k => k
  | .byte c => byteStep v c
  | .reset => Config.resetValue

/-- A listing is executed top to bottom, one line per step (R45). -/
def assemble (ls : List Line) : List Pins := ls.map Line.pins

/-- The fold of the lines' effects, starting from v (spec/20_memory.md R29). -/
def linesEffect (v : Byte) (ls : List Line) : Byte := ls.foldl Line.effect v

/-- The expansions of R46. -/
def Pseudo.expand : Pseudo → List Line
  | .update k b => .seed k :: b.map .byte
  | .cont b => b.map .byte
  | .fresh b => .seed Config.init :: b.map .byte
  | .nop => [.hold]

/-- One hexadecimal digit, written. -/
def hexDigit (n : Nat) : Char :=
  ['0', '1', '2', '3', '4', '5', '6', '7', '8', '9', 'A', 'B', 'C', 'D', 'E', 'F'].getD n '0'

/-- The value of one hexadecimal digit, of either case (log 13). -/
def hexValue (c : Char) : Option Nat :=
  if '0' ≤ c ∧ c ≤ '9' then some (c.toNat - 48)
  else if 'A' ≤ c ∧ c ≤ 'F' then some (c.toNat - 55)
  else if 'a' ≤ c ∧ c ≤ 'f' then some (c.toNat - 87)
  else none

/-- An operand, written `0xkk`. -/
def renderByte (v : Byte) : List Char := ['0', 'x', hexDigit (v.toNat / 16), hexDigit (v.toNat % 16)]

/-- A line, written: upper-case mnemonic, then the operand in hexadecimal (R45). -/
def Line.render : Line → List Char
  | .hold => "HOLD".toList
  | .seed k => "SEED ".toList ++ renderByte k
  | .byte c => "BYTE ".toList ++ renderByte c
  | .reset => "RESET".toList

/-- A listing, written: every line ends in a line feed. -/
def renderListing : List Line → List Char
  | [] => []
  | l :: ls => Line.render l ++ '\n' :: renderListing ls

/-- An operand, read: `0x` and two digits; "an operand outside 0x00 to 0xFF is not writable" (R45, log 13). -/
def parseByte : List Char → Except ListingError Byte
  | ['0', 'x', a, b] =>
    match hexValue a, hexValue b with
    | some h, some l => .ok (BitVec.ofNat 8 (16 * h + l))
    | _, _ => .error .operandNotWritable
  | _ => .error .operandNotWritable

/-- The characters that are words of their own. -/
def isMark (c : Char) : Bool := c == '[' || c == ']' || c == ','

/-- Blank characters between words. -/
def isBlank (c : Char) : Bool := c == ' ' || c == '\t' || c == '\r'

/-- Ends the word being read (its characters in reverse) and puts it before the words that follow. -/
def endWord (word : List Char) (rest : List (List Char)) : List (List Char) :=
  if word.isEmpty then rest else word.reverse :: rest

/-- The words of a line, up to the `;` that starts a comment (R45). -/
def wordsFrom : List Char → List Char → List (List Char)
  | word, [] => endWord word []
  | word, c :: cs =>
    if c == ';' then endWord word []
    else if isBlank c then endWord word (wordsFrom [] cs)
    else if isMark c then endWord word ([c] :: wordsFrom [] cs)
    else wordsFrom (c :: word) cs

/-- The bytes after the first of a buffer, up to the closing bracket: `, 0xcc … ]`. -/
def parseRest : List (List Char) → Except ListingError (List Byte)
  | [[']']] => .ok []
  | [','] :: x :: rest =>
    match parseByte x, parseRest rest with
    | .ok c, .ok bs => .ok (c :: bs)
    | .error e, _ => .error e
    | _, .error e => .error e
  | _ => .error .notALine

/-- A buffer, `[b0, b1, …]`, the empty one included (R46). -/
def parseBuffer : List (List Char) → Except ListingError (List Byte)
  | [['['], [']']] => .ok []
  | ['['] :: x :: rest =>
    match parseByte x, parseRest rest with
    | .ok c, .ok bs => .ok (c :: bs)
    | .error e, _ => .error e
    | _, .error e => .error e
  | _ => .error .notALine

/-- A line with one operand. -/
def parseOperandLine (make : Byte → Line) (x : List Char) : Except ListingError (List Line) :=
  match parseByte x with
  | .ok v => .ok [make v]
  | .error e => .error e

/-- A pseudo-instruction with a buffer. -/
def parseBufferLine (make : List Byte → Pseudo) (ws : List (List Char)) : Except ListingError (List Line) :=
  match parseBuffer ws with
  | .ok b => .ok (Pseudo.expand (make b))
  | .error e => .error e

/-- The steps one line of text stands for: none for a blank line, one for a line of R45, the expansion for a
pseudo-instruction of R46. -/
def parseWords (ws : List (List Char)) : Except ListingError (List Line) :=
  match ws with
  | [] => .ok []
  | w :: rest =>
    if w = "HOLD".toList ∧ rest = [] then .ok [.hold]
    else if w = "RESET".toList ∧ rest = [] then .ok [.reset]
    else if w = "NOP".toList ∧ rest = [] then .ok (Pseudo.expand .nop)
    else if w = "CONT".toList then parseBufferLine .cont rest
    else if w = "FRESH".toList then parseBufferLine .fresh rest
    else
      match rest with
      | [x] =>
        if w = "SEED".toList then parseOperandLine .seed x
        else if w = "BYTE".toList then parseOperandLine .byte x
        else .error .notALine
      | x :: [','] :: buffer =>
        if w = "UPDATE".toList then
          match parseByte x with
          | .ok k => parseBufferLine (.update k) buffer
          | .error e => .error e
        else .error .notALine
      | _ => .error .notALine

/-- The steps one line of text stands for. -/
def parseLine (text : List Char) : Except ListingError (List Line) := parseWords (wordsFrom [] text)

/-- The lines of a text: the first line, and the lines after it. -/
def splitLines : List Char → List Char × List (List Char)
  | [] => ([], [])
  | c :: cs =>
    let (first, rest) := splitLines cs
    if c == '\n' then ([], first :: rest) else (c :: first, rest)

/-- The steps of lines of text, top to bottom. -/
def parseLines : List (List Char) → Except ListingError (List Line)
  | [] => .ok []
  | t :: ts =>
    match parseLine t, parseLines ts with
    | .ok a, .ok b => .ok (a ++ b)
    | .error e, _ => .error e
    | _, .error e => .error e

/-- A listing, read (R45, R46). -/
def parseListing (text : List Char) : Except ListingError (List Line) :=
  let (first, rest) := splitLines text
  parseLines (first :: rest)

end Sys2Proof
end

