-- ==== Sys2Proof/Machine/Run.lean ====
section
/-! DEFINITION. Runs and what a host sees of them (spec/70_reset_and_hazards.md R110). -/

namespace Sys2Proof.Machine

/-- `n` steps, stopping at the first that gives no next state: the left fold of the step over the input triples
(R110). -/
def run : Nat → State → Host.Outcome State Fault Refusal
  | 0, s => .next s
  | n + 1, s =>
    match step s with
    | .next t => run n t
    | .fault e => .fault e
    | .refused e => .refused e

/-- "The observation is the sequence of values of `crc` after each step" (R110), over the first `n` steps. -/
def observations : Nat → State → List (Except Fault Byte)
  | 0, _ => []
  | n + 1, s =>
    match step s with
    | .next t => t.crcPort :: observations n t
    | .fault _ => []
    | .refused _ => []

end Sys2Proof.Machine
end

