-- ==== Sys2Proof/Safety.lean ====
section
/-! DEFINITION. What a safe run is: one that neither faults nor is refused. The host's two duties that make a run
safe are seeding before the first BYTE (spec/70_reset_and_hazards.md R109) and never presenting the reserved
opcode (R115). -/

namespace Sys2Proof.Machine

/-- CRC holds a value: a reset or a SEED has written it (R107). -/
def Accumulator.written : Accumulator → Bool
  | .unwritten => false
  | .holds _ => true

/-- The invariant that rules the model's one fault out. -/
abbrev CrcWritten (s : State) : Prop := s.crc.written = true

/-- Both duties on a list of input triples, from a CRC that is written or not: no BYTE before a reset or SEED
(R109), no reserved opcode with `rst` = 0 (R115). HOLD leaves the condition as it is; reset and SEED end it
(R107). -/
def safeInputs : Bool → List Pins → Bool
  | _, [] => true
  | written, p :: ps =>
    match decodePins p with
    | .reset => safeInputs true ps
    | .command .hold => safeInputs written ps
    | .command (.seed _) => safeInputs true ps
    | .command (.byte _) => written && safeInputs written ps
    | .command .reserved => false

/-- The run over everything the host presents ends in a state: every step of it completes. -/
def Completes (s : State) : Prop := ∃ t, run s.inputs.length s = .next t

end Sys2Proof.Machine
end

