-- ==== Sys2Proof/Certificates/Slice0/Obligations.lean ====
section
/-! DEFINITION. The statements for the provers. Each docstring names the rule of spec/ it formalises; a clause that
rests on a choice of the model names the log entry. Throughout, `s.inputs = p :: rest` says that p is what the next
step samples: State's list is the model's form of the list of input triples in R110 (log 1), and `.unwritten` its form
of "not yet written" in R107 (log 3). -/

open Sys2Proof Sys2Proof.Machine

/-! ### State, reset, port -/

/-- R18: after a reset step CRC holds 0x00 (and so it is in the state after reset); before the first reset it is
unspecified, which the model treats as holding no value, and a BYTE or an observation of `crc` as a fault. -/
def Obligations.ResetValueAndPowerUpCondition : Prop :=
  State.reset.crc = .holds 0x00#8 ∧
  (∀ (s : State) (p : Pins) (rest : List Pins), s.inputs = p :: rest → p.rst = true →
    ∃ t, step s = .next t ∧ t.crc = .holds 0x00#8 ∧ t.crcPort = .ok 0x00#8) ∧
  State.powerUp.crc = .unwritten ∧
  (∀ s : State, s.crc = .unwritten →
    (∀ c, exec (.byte c) s = .fault .unwrittenAccumulator) ∧
    s.crcPort = .error .unwrittenAccumulator)

/-- R105, R106: a step with `rst` = 1 writes 0x00 to CRC and does nothing else, whatever the word on the pins (the
reserved one included); it has exactly the effect of `SEED 0x00`. With `rst` = 0 the word alone decides. -/
def Obligations.ResetStepOverridesCommandWord : Prop :=
  ∀ (s : State) (p : Pins) (rest : List Pins), s.inputs = p :: rest →
    (p.rst = true →
      step s = .next { crc := .holds 0x00#8, inputs := rest } ∧
      step s = exec (.seed 0x00#8) { s with inputs := rest }) ∧
    (p.rst = false → step s = exec (decode p.word) { s with inputs := rest })

/-- R107: while CRC is unwritten, BYTE and an observation fault, HOLD leaves the condition as it is, reset and SEED
end it; a run that starts with a reset step never meets the condition. -/
def Obligations.UnwrittenAccumulatorBeforeFirstReset : Prop :=
  State.powerUp.crc = .unwritten ∧
  (∀ s : State, s.crc = .unwritten →
    (∀ c, exec (.byte c) s = .fault .unwrittenAccumulator) ∧
    s.crcPort = .error .unwrittenAccumulator ∧
    exec .hold s = .next s ∧
    (∀ k, exec (.seed k) s = .next { s with crc := .holds k }) ∧
    (∀ (p : Pins) (rest : List Pins), s.inputs = p :: rest → p.rst = true →
      ∃ t, step s = .next t ∧ t.crc = .holds 0x00#8)) ∧
  (∀ (s : State) (p : Pins) (rest : List Pins), s.inputs = p :: rest → p.rst = true →
    ∀ n e, run n s ≠ .fault e)

/-- R36: at all times the port shows the content of register CRC and nothing else, not reflected and with no final
exclusive-or; so what it shows after a step is the register after that step. -/
def Obligations.PortIsPlainViewOfRegister : Prop :=
  (∀ (s : State) (v : Byte), s.crcPort = .ok v ↔ s.crc = .holds v) ∧
  (∀ (s t : State) (v : Byte), step s = .next t → t.crc = .holds v →
    t.crcPort = .ok v ∧ v.toNat ≤ 255 ∧ ∀ w, t.crcPort = .ok w → ∀ i, w.getLsbD i = v.getLsbD i)

/-- R114 (derived in the spec): the value on `crc` at the edge at which a BYTE is presented is the accumulator
before that byte; just after that edge it is the accumulator with the byte folded in. -/
def Obligations.ResultIsReadAfterTheLastStep : Prop :=
  ∀ (s : State) (v : Byte) (p : Pins) (rest : List Pins) (c : Byte),
    s.crc = .holds v → s.inputs = p :: rest → decodePins p = .command (.byte c) →
    s.crcPort = .ok v ∧
    ∃ t, step s = .next t ∧ t.inputs = rest ∧ t.crcPort = .ok (byteStep v c)

/-! ### Words -/

/-- R39: the opcode map is the one printed, and every one of the 1024 words selects exactly one row of it, the row
of the command the decoder reads. -/
def Obligations.OpcodeMapPartitionsAllWords : Prop :=
  opcodeRows.map (fun row => (row.mask, row.pattern, row.mnemonic)) =
    [(0x300#10, 0x000#10, "HOLD"), (0x300#10, 0x100#10, "SEED"),
     (0x300#10, 0x200#10, "BYTE"), (0x300#10, 0x300#10, "RESERVED")] ∧
  ∀ w : CommandWord,
    (opcodeRows.filter fun row => w &&& row.mask == row.pattern).map OpcodeRow.mnemonic =
      [(decode w).mnemonic]

/-- R43: decode of a step's inputs, total over all values of `rst`, `cmd`, `din`. -/
def Obligations.DecodeOfStepInputs : Prop :=
  ∀ p : Pins,
    decodePins p =
      if p.rst = true then .reset
      else if p.cmd = 0b00#2 then .command .hold
      else if p.cmd = 0b01#2 then .command (.seed p.din)
      else if p.cmd = 0b10#2 then .command (.byte p.din)
      else .command .reserved

/-- The words spec/95_test_vectors.md section 2.6 prints decode to the commands it prints. -/
def Obligations.PrintedEncodingsDecode : Prop :=
  decode 0b0000000000#10 = .hold ∧ decode 0b0011111111#10 = .hold ∧
  decode 0b0111000000#10 = .seed 0xC0#8 ∧ decode 0b1000111001#10 = .byte 0x39#8 ∧
  decode 0b1100000000#10 = .reserved ∧ decode 0b1111111111#10 = .reserved

/-- Decode and encode agree: every command is read back from its word, with every operand, also through the
host's table numbering; and every word is written back from its command, except for the operand bits that HOLD and
the reserved opcode ignore, which are written as zero (log 7, for the reserved opcode the model's choice). The second and
the fourth clause, decodeTableWord answering the command whatever nbits is and none for a number of 1024 or more, are
the model's choice of how a table word is numbered (log 6). -/
def Obligations.DecodeEncodeRoundTrip : Prop :=
  (∀ i : Instr, decode (encode i) = i) ∧
  (∀ (i : Instr) (nbits : Nat), decodeTableWord nbits (encode i).toNat = some i) ∧
  (∀ w : CommandWord, encode (decode w) =
    if opcode w = 0b01#2 ∨ opcode w = 0b10#2 then w else w &&& 0x300#10) ∧
  (∀ (w nbits : Nat), 1024 ≤ w → decodeTableWord nbits w = none)

/-- R23: byte c is consumed as c[7], c[6], …, c[0], which are the bits at the masks 0x80 down to 0x01; bit i of the
`crc` port is bit i of the accumulator. -/
def Obligations.BitOrderMostSignificantFirst : Prop :=
  (∀ c : Byte, inputBits c =
    [c.getLsbD 7, c.getLsbD 6, c.getLsbD 5, c.getLsbD 4, c.getLsbD 3, c.getLsbD 2, c.getLsbD 1, c.getLsbD 0]) ∧
  (∀ c : Byte, inputBits c = (List.range 8).map fun n => c &&& (0x80#8 >>> n) != 0#8) ∧
  (∀ (s : State) (v w : Byte), s.crc = .holds v → s.crcPort = .ok w → ∀ i, w.getLsbD i = v.getLsbD i)

/-! ### The commands: what each does, and that it completes -/

/-- HOLD (R60; its derived sentence is `HoldStepsChangeNoResult`): every word with opcode 00 is HOLD, whatever its
operand; HOLD completes in every state and changes nothing, an unwritten CRC included, and so does any number of HOLD
steps. -/
def Obligations.HoldLeavesEverything : Prop :=
  (∀ w : CommandWord, w &&& 0x300#10 = 0x000#10 → decode w = .hold) ∧
  (∀ s : State, exec .hold s = .next s) ∧
  (∀ (s : State) (ps rest : List Pins), s.inputs = ps ++ rest →
    (∀ p ∈ ps, p.rst = false ∧ p.cmd = 0b00#2) → run ps.length s = .next { s with inputs := rest })

/-- R61: a word with opcode 01 is SEED of its low eight bits; SEED completes in every state, for every k, and leaves
k in CRC and nothing else changed; seeding what CRC holds changes nothing, `SEED 0x00` is the reset. -/
def Obligations.SeedLoadsOperand : Prop :=
  (∀ w : CommandWord, w &&& 0x300#10 = 0x100#10 → decode w = .seed (w.extractLsb' 0 8)) ∧
  (∀ (k : Byte) (s : State), exec (.seed k) s = .next { s with crc := .holds k }) ∧
  (∀ (k : Byte) (s : State), s.crc = .holds k → exec (.seed k) s = .next s) ∧
  (∀ s : State, exec (.seed 0x00#8) s = .next s.takeReset)

/-- R62: a word with opcode 10 is BYTE of its low eight bits; where CRC holds a value, BYTE completes and leaves
exactly eight bit steps of it in CRC, bit 7 of the operand first, nothing else changed; the printed corner cases and
the printed example, bit by bit. (The rule's remark on zero bytes is `ZeroByteIsNotSkipped`, log 15.) -/
def Obligations.ByteFoldsEightBitSteps : Prop :=
  (∀ w : CommandWord, w &&& 0x300#10 = 0x200#10 → decode w = .byte (w.extractLsb' 0 8)) ∧
  (∀ (c r : Byte) (s : State), s.crc = .holds r →
    exec (.byte c) s = .next { s with crc := .holds (
      bitStep (bitStep (bitStep (bitStep (bitStep (bitStep (bitStep (bitStep r
        (c.getLsbD 7)) (c.getLsbD 6)) (c.getLsbD 5)) (c.getLsbD 4)) (c.getLsbD 3)) (c.getLsbD 2))
        (c.getLsbD 1)) (c.getLsbD 0)) }) ∧
  (∀ (c r : Byte) (s : State), s.crc = .holds r →
    exec (.byte c) s = .next { s with crc := .holds (byteStep r c) }) ∧
  byteStep 0x00#8 0x00#8 = 0x00#8 ∧ byteStep 0x00#8 0xFF#8 = 0xF3#8 ∧ byteStep 0xFF#8 0x00#8 = 0xF3#8 ∧
  byteStep 0x00#8 0x01#8 = 0x07#8 ∧ byteStep 0x00#8 0x80#8 = 0x89#8 ∧ byteStep 0x01#8 0x00#8 = 0x07#8 ∧
  (∀ r : Byte, byteStep r r = 0x00#8) ∧
  (List.range 8).map (fun n => bitSteps 0x00#8 ((inputBits 0x31#8).take (n + 1))) =
    [0x00#8, 0x00#8, 0x07#8, 0x09#8, 0x12#8, 0x24#8, 0x48#8, 0x97#8]

/-- R41: the 256 words with opcode 11 are reserved; a step that presents one with `rst` = 0 is refused under that
name, in every state. -/
def Obligations.ReservedOpcodeIsRefused : Prop :=
  (∀ w : CommandWord, w &&& 0x300#10 = 0x300#10 → decode w = .reserved) ∧
  (∀ s : State, exec .reserved s = .refused .reservedOpcode) ∧
  (∀ (s : State) (p : Pins) (rest : List Pins), s.inputs = p :: rest → p.rst = false → p.cmd = 0b11#2 →
    step s = .refused .reservedOpcode)

/-- spec/60_exceptions.md section 1: HOLD, SEED and BYTE are total over all operand values and all values of CRC.
None of them stops in a state whose CRC holds a value, and CRC holds a value after it. -/
def Obligations.DefinedCommandsAreTotal : Prop :=
  ∀ (i : Instr) (s : State), i.wellFormed = true → CrcWritten s →
    ∃ t, exec i s = .next t ∧ CrcWritten t

/-- The frame of the three commands (the register-only shape; none stores anything): the triples the host has still
to present are as before, and CRC, the only register, is written by SEED and BYTE alone (spec/10_state.md section 1,
spec/20_memory.md sections 3 and 5). -/
def Obligations.CommandFrame : Prop :=
  ∀ (i : Instr) (s t : State), exec i s = .next t →
    t.inputs = s.inputs ∧
    (i = .hold → t.crc = s.crc) ∧
    (∀ k, i = .seed k → t.crc = .holds k) ∧
    (∀ c, i = .byte c → ∃ r, s.crc = .holds r ∧ t.crc = .holds (byteStep r c))

/-! ### The step -/

/-- A step runs the decoded command: with the bytes of a word presented, the step is exec of the command the word
decodes to, at the state in which the triple of that step has been taken from the host's list (log 1, log 6). -/
def Obligations.StepRunsPresentedCommand : Prop :=
  (∀ (s : State) (p : Pins) (rest : List Pins), s.inputs = p :: rest → p.rst = false →
    step s = exec (decode p.word) { s with inputs := rest }) ∧
  (∀ (s : State) (nbits w : Nat) (i : Instr), decodeTableWord nbits w = some i →
    step (s.withFetchWord nbits w) = exec i { s with inputs := s.inputs.tail }) ∧
  (∀ (s : State) (nbits : Nat) (i : Instr),
    step (s.withFetchWord nbits (encode i).toNat) = exec i { s with inputs := s.inputs.tail })

/-- R110: the step as the function of CRC and the inputs that the rule prints, for a CRC that holds a value; the
output before and after the edge; the state after a run is the left fold of the step: no step leaves the state, one
step more is the step and then the rest of the run, and a step that stops stops the run; the observation is the value
of `crc` after each step in turn; so a run of m + n steps is the run of n steps from where m steps lead, its
observation the two observations one after the other; and a run ends where the list of inputs ends. (An unwritten CRC
is R107's.) -/
def Obligations.StepIsTheTransitionFunction : Prop :=
  (∀ (v : Byte) (p : Pins) (rest : List Pins),
    step { crc := .holds v, inputs := p :: rest } =
      if p.rst = true then .next { crc := .holds 0x00#8, inputs := rest }
      else if p.cmd = 0b00#2 then .next { crc := .holds v, inputs := rest }
      else if p.cmd = 0b01#2 then .next { crc := .holds p.din, inputs := rest }
      else if p.cmd = 0b10#2 then .next { crc := .holds (byteStep v p.din), inputs := rest }
      else .refused .reservedOpcode) ∧
  (∀ (v : Byte) (s : State), s.crc = .holds v → s.crcPort = .ok v) ∧
  (∀ s : State, run 0 s = .next s ∧ observations 0 s = []) ∧
  (∀ (n : Nat) (s t : State), step s = .next t →
    run (n + 1) s = run n t ∧ observations (n + 1) s = t.crcPort :: observations n t) ∧
  (∀ (n : Nat) (s : State) (e : Fault), step s = .fault e →
    run (n + 1) s = .fault e ∧ observations (n + 1) s = []) ∧
  (∀ (n : Nat) (s : State) (e : Refusal), step s = .refused e →
    run (n + 1) s = .refused e ∧ observations (n + 1) s = []) ∧
  (∀ (m n : Nat) (s t : State), run m s = .next t →
    run (m + n) s = run n t ∧ observations (m + n) s = observations m s ++ observations n t) ∧
  (∀ s : State, s.inputs = [] → ∀ t, step s ≠ .next t)

/-- With nothing left to present the run has ended: there is no further step (log 2, the model's name for "The run
ends where the list ends"). -/
def Obligations.RunEndsWhereInputsEnd : Prop :=
  ∀ s : State, s.inputs = [] → step s = .refused .endOfRun

/-- A step that answers a next state has taken exactly one triple from the host's list, the first, and left the
others as they were: nothing is read ahead, reordered, merged, dropped or written back (spec/20_memory.md sections 3
and 5; the list is the model's, log 1). -/
def Obligations.StepTakesExactlyOneInput : Prop :=
  ∀ (n : Nat) (s t : State), run n s = .next t → n ≤ s.inputs.length ∧ t.inputs = s.inputs.drop n

/-- The only steps that stop: a BYTE on an unwritten CRC faults, the reserved opcode is refused, and the end of the
list ends the run; nothing else does (spec/60_exceptions.md section 1; log 2, log 3, log 5). -/
def Obligations.StopsAreExactlyThese : Prop :=
  (∀ (s : State) (e : Fault), step s = .fault e ↔
    s.crc = .unwritten ∧ e = .unwrittenAccumulator ∧
      ∃ p rest c, s.inputs = p :: rest ∧ decodePins p = .command (.byte c)) ∧
  (∀ (s : State) (e : Refusal), step s = .refused e ↔
    (e = .endOfRun ∧ s.inputs = []) ∨
    (e = .reservedOpcode ∧ ∃ p rest, s.inputs = p :: rest ∧ decodePins p = .command .reserved))

/-- R19: the value of CRC after a step is a function of the value before it and of the command alone; for SEED and
reset, of the command or reset alone. Two engines that differ in everything else end alike. -/
def Obligations.NextCrcDependsOnlyOnCrcAndCommand : Prop :=
  ∀ (s s' : State) (p p' : Pins) (rest rest' : List Pins),
    s.inputs = p :: rest → s'.inputs = p' :: rest' → decodePins p = decodePins p' →
    (s.crc = s'.crc → ∀ t, step s = .next t → ∃ t', step s' = .next t' ∧ t'.crc = t.crc) ∧
    (decodePins p = .reset ∨ (∃ k, decodePins p = .command (.seed k)) →
      ∃ t t', step s = .next t ∧ step s' = .next t' ∧ t'.crc = t.crc)

/-! ### Invariants and whole runs -/

/-- CRC holds a value in the state after reset (R108). -/
def Obligations.CrcWrittenAtReset : Prop := CrcWritten State.reset

/-- Every step keeps it: once a reset or a SEED has written CRC it never becomes unwritten again; and no step
from such a state faults (spec/70_reset_and_hazards.md section 1). -/
def Obligations.StepKeepsCrcWritten : Prop :=
  ∀ s : State, CrcWritten s →
    (∀ t, step s = .next t → CrcWritten t) ∧ (∀ e, step s ≠ .fault e)

/-- No run of any length from a state whose CRC holds a value ends in the model's fault, and the port shows a value
after each of its steps. -/
def Obligations.NoRunFromWrittenCrcFaults : Prop :=
  ∀ (n : Nat) (s : State), CrcWritten s →
    (∀ e, run n s ≠ .fault e) ∧ (∀ o ∈ observations n s, ∃ v, o = .ok v)

/-- The host's two duties are exactly what a run needs: from every state (power-up included) everything presented is
executed to the end if and only if no BYTE comes before CRC is written (spec/70_reset_and_hazards.md section 2) and
no reserved opcode is presented with `rst` = 0 (section 4). -/
def Obligations.RunsCompleteExactlyWhenInputsAreSafe : Prop :=
  ∀ s : State, safeInputs s.crc.written s.inputs = true ↔ Completes s

/-- R29: the value on `crc` after step t is the fold of the commands' rules over the inputs of steps 1 to t,
starting from the value before step 1: each command sees the complete effect of every earlier one and none of any
later one. The operands HOLD ignores, and the words reset ignores, are arbitrary. -/
def Obligations.PortAfterEachStepIsTheFold : Prop :=
  ∀ (v : Byte) (ps rest : List Pins) (ls : List Line),
    ps.map decodePins = ls.map Line.event →
    run ps.length { crc := .holds v, inputs := ps ++ rest } =
      .next { crc := .holds (linesEffect v ls), inputs := rest } ∧
    observations ps.length { crc := .holds v, inputs := ps ++ rest } =
      (List.range ls.length).map fun t => .ok (linesEffect v (ls.take (t + 1)))

/-- HOLD steps before, between or after the other steps change no result (R60's derived sentence): two sequences
that are alike when their HOLDs are taken out lead from one value to one value. -/
def Obligations.HoldStepsChangeNoResult : Prop :=
  ∀ (v : Byte) (ls ls' : List Line) (ps ps' rest : List Pins),
    ls.filter (· != .hold) = ls'.filter (· != .hold) →
    ps.map decodePins = ls.map Line.event → ps'.map decodePins = ls'.map Line.event →
    ∃ t, run ps.length { crc := .holds v, inputs := ps ++ rest } = .next t ∧
      run ps'.length { crc := .holds v, inputs := ps' ++ rest } = .next t

/-- The machine computes the source's `update` (R71, derived in the spec): from every state, power-up included,
`SEED k` and then one BYTE for each byte of the buffer in order, with HOLD steps of any operand anywhere between
them and `rst` = 0 throughout, leave `Update(k, b)` on the port. -/
def Obligations.SeedThenBytesComputeUpdate : Prop :=
  ∀ (s : State) (k : Byte) (b : List Byte) (ps rest : List Pins),
    s.inputs = ps ++ rest →
    (ps.map decodePins).filter (· != .command .hold) =
      .command (.seed k) :: b.map (fun c => .command (.byte c)) →
    ∃ t, run ps.length s = .next t ∧ t.crc = .holds (update k b) ∧ t.crcPort = .ok (update k b) ∧
      t.inputs = rest

/-- Continuation (R72, derived in the spec): if CRC holds k, the BYTEs alone do it; with an empty buffer and no step
at all the port already shows k. -/
def Obligations.BytesAloneContinueUpdate : Prop :=
  ∀ (s : State) (k : Byte) (b : List Byte) (ps rest : List Pins),
    s.crc = .holds k → s.inputs = ps ++ rest →
    (ps.map decodePins).filter (· != .command .hold) = b.map (fun c => .command (.byte c)) →
    ∃ t, run ps.length s = .next t ∧ t.crc = .holds (update k b) ∧ t.crcPort = .ok (update k b) ∧
      t.inputs = rest

/-- R113 (derived in the spec): a stream suspended after its first part, with another stream run in between from a
seed of its own, ends as if it had not been interrupted when the host seeds the value it read; without HOLD steps,
each line one step. -/
def Obligations.SuspendedStreamResumesUnchanged : Prop :=
  ∀ (s : State) (k k' a : Byte) (b₁ b₂ b' : List Byte) (rest : List Pins),
    a = update k b₁ →
    s.inputs = assemble (Pseudo.expand (.update k b₁) ++ Pseudo.expand (.update k' b') ++
      .seed a :: b₂.map .byte) ++ rest →
    ∃ t₁ t₂ t₃ : State,
      run (b₁.length + 1) s = .next t₁ ∧ t₁.crcPort = .ok a ∧
      run (b'.length + 1) t₁ = .next t₂ ∧ t₂.crcPort = .ok (update k' b') ∧
      run (b₂.length + 1) t₂ = .next t₃ ∧ t₃.crcPort = .ok (update k (b₁ ++ b₂)) ∧ t₃.inputs = rest

/-- R77: the engine does not write toward the host, and after a transaction the only trace of the buffer is the value
of CRC: two transactions from any two states, with different seeds and different buffers, whose results are equal,
end in the same state. -/
def Obligations.OnlyTraceOfBufferIsCrc : Prop :=
  ∀ (s s' t t' : State) (k k' : Byte) (b b' : List Byte) (rest : List Pins),
    s.inputs = assemble (Pseudo.expand (.update k b)) ++ rest →
    s'.inputs = assemble (Pseudo.expand (.update k' b')) ++ rest →
    run (b.length + 1) s = .next t → run (b'.length + 1) s' = .next t' →
    t.inputs = rest ∧ (update k b = update k' b' → t = t')

/-! ### The bit step -/

/-- R50: the pseudocode of BITSTEP, the source's steps a to d of it, and its example. -/
def Obligations.BitStepIsTheFourSteps : Prop :=
  (∀ (r : Byte) (d : Bool), bitStep r d =
    if (r.getLsbD 7 ^^ d) = true then (r <<< 1) ^^^ 0x07#8 else r <<< 1) ∧
  (∀ (r : Byte) (d : Bool), feedbackBit r d = ((r &&& 0x80#8 != 0#8) ^^ d)) ∧
  bitStep 0x80#8 false = 0x07#8

/-- R52: the only shift is left by one on 8 bits: bits 7 to 1 of the result are bits 6 to 0 of the operand, bit 0
is 0, bit 7 of the operand is discarded. -/
def Obligations.ShiftDiscardsTopBit : Prop :=
  (∀ (r : Byte) (i : Nat), i < 7 → (shiftLeftOne r).getLsbD (i + 1) = r.getLsbD i) ∧
  (∀ r : Byte, (shiftLeftOne r).getLsbD 0 = false) ∧
  (∀ r s : Byte, (∀ i, i < 7 → r.getLsbD i = s.getLsbD i) → shiftLeftOne r = shiftLeftOne s)

/-- R51 (derived in the spec): the next value of each of the eight flip-flops of a shift register with taps at
stages 0, 1 and 2, and the same as one function. -/
def Obligations.BitStepIsAShiftRegisterWithThreeTaps : Prop :=
  ∀ (r : Byte) (d : Bool),
    (bitStep r d).getLsbD 0 = (r.getLsbD 7 ^^ d) ∧
    (bitStep r d).getLsbD 1 = (r.getLsbD 0 ^^ (r.getLsbD 7 ^^ d)) ∧
    (bitStep r d).getLsbD 2 = (r.getLsbD 1 ^^ (r.getLsbD 7 ^^ d)) ∧
    (∀ i, 2 ≤ i → i < 7 → (bitStep r d).getLsbD (i + 1) = r.getLsbD i) ∧
    bitStep r d = bitStepTaps r d

/-- R56 (derived in the spec): the laws of the bit step: linear over exclusive or, the data bit acts only through
the top bit, and for each data bit a bijection, with the inverse the rule prints. -/
def Obligations.BitStepLaws : Prop :=
  (∀ (r s : Byte) (d e : Bool), bitStep (r ^^^ s) (d ^^ e) = bitStep r d ^^^ bitStep s e) ∧
  bitStep 0x00#8 false = 0x00#8 ∧
  (∀ (r : Byte) (d : Bool), bitStep r d = bitStep r false ^^^ bitStep 0x00#8 d) ∧
  (∀ (r : Byte) (d : Bool), bitStep r d = bitStep (r ^^^ (if d then 0x80#8 else 0x00#8)) false) ∧
  (∀ d : Bool, Function.Bijective fun r => bitStep r d) ∧
  (∀ (r : Byte) (d : Bool), bitUnstep (bitStep r d) d = r ∧ bitStep (bitUnstep r d) d = r)

/-! ### The byte step and its other forms -/

/-- R53 (derived in the spec): the source's algorithm on a variable that grows past 8 bits, masked once per byte and
once more at the end, is the same function: at every bit step the low 8 bits are the 8-bit accumulator, whatever
stands above them. -/
def Obligations.LateMaskIsTheSameFunction : Prop :=
  (∀ (x : Nat) (ds : List Bool), (ds.foldl bitStepWide x) % 256 = (bitSteps (BitVec.ofNat 8 x) ds).toNat) ∧
  (∀ r c : Byte, byteStepLateMask r.toNat c = (byteStep r c).toNat) ∧
  (∀ (k : Byte) (b : List Byte), updateLateMask k.toNat b = (update k b).toNat)

/-- R63 (derived in the spec): the byte exclusive-ored in first, then eight bit steps with data bit 0. -/
def Obligations.ByteStepWithByteFoldedInFirst : Prop :=
  ∀ r c : Byte, byteStep r c = byteStep (r ^^^ c) 0x00#8 ∧ byteStep r c = byteStepFolded r c

/-- R64 (derived in the spec): the byte step as one exclusive-or network, bit by bit and by columns. -/
def Obligations.ByteStepIsTheXorNetwork : Prop :=
  (∀ r c : Byte, byteStep r c = byteStepNetwork r c) ∧
  (∀ r c : Byte, byteStep r c = byteStepColumns r c) ∧
  networkColumns = (List.range 8).map fun j => byteStep 0x00#8 (0x01#8 <<< j)

/-- R65 (derived in the spec) with the printed table of spec/95_test_vectors.md section 2.4: the 256 printed values
are the byte steps from 0x00, all distinct, and one lookup gives every byte step. -/
def Obligations.PrintedTableGivesEveryByteStep : Prop :=
  crcTable.length = 256 ∧ crcTable.Nodup ∧
  (∀ x : Byte, crcTable[x.toNat]? = some (byteStep 0x00#8 x)) ∧
  (∀ r c : Byte, byteStep r c = byteStepTable r c)

/-- R66 (derived in the spec): the laws of the byte step: linear over exclusive or, a byte equal to the accumulator
gives zero, a bijection in each argument. -/
def Obligations.ByteStepLaws : Prop :=
  (∀ r s c e : Byte, byteStep (r ^^^ s) (c ^^^ e) = byteStep r c ^^^ byteStep s e) ∧
  byteStep 0x00#8 0x00#8 = 0x00#8 ∧
  (∀ r : Byte, byteStep r r = 0x00#8) ∧
  (∀ c : Byte, Function.Bijective fun r => byteStep r c) ∧
  (∀ r : Byte, Function.Bijective fun c => byteStep r c)

/-- Zero bytes are not skipped: a zero byte changes every non-zero accumulator but 0xFD. The remark of
spec/41_commands.md section 3, "a zero byte does change a non-zero accumulator", leaves the one exception out; the
pseudocode and the printed table (T[FD] = FD) give it (log 15). -/
def Obligations.ZeroByteIsNotSkipped : Prop :=
  ∀ r : Byte, byteStep r 0x00#8 = r ↔ r = 0x00#8 ∨ r = 0xFD#8

/-! ### UPDATE -/

/-- R70: the two equations of `Update`, and the source's loop, which reads the buffer by index in ascending
order. -/
def Obligations.UpdateIsTheLeftFold : Prop :=
  (∀ k : Byte, update k [] = k) ∧
  (∀ (k c : Byte) (bs : List Byte), update k (c :: bs) = update (byteStep k c) bs) ∧
  (∀ (k : Byte) (b : List Byte), update k b = updateLoop k b) ∧
  update 0x00#8 [0x31#8, 0x32#8, 0x33#8, 0x34#8, 0x35#8, 0x36#8, 0x37#8, 0x38#8, 0x39#8] = 0xF4#8

/-- R73: the empty buffer: `update(k, [])` is k; a transaction with no BYTE leaves on `crc` exactly the seed, and a
continuation with no BYTE leaves CRC as it was. -/
def Obligations.EmptyBufferIsIdentity : Prop :=
  (∀ k : Byte, update k [] = k) ∧
  (∀ (s : State) (k : Byte) (rest : List Pins),
    s.inputs = assemble (Pseudo.expand (.update k [])) ++ rest →
    ∃ t, run 1 s = .next t ∧ t.crcPort = .ok k) ∧
  (∀ s : State, (assemble (Pseudo.expand (.cont []))).length = 0 ∧ run 0 s = .next s)

/-- R74: chunking invariance: for every partition of the input into fragments, zero-length ones included, updating
fragment by fragment is updating once over the whole. -/
def Obligations.ChunkingInvariance : Prop :=
  (∀ (k : Byte) (b₁ b₂ : List Byte), update (update k b₁) b₂ = update k (b₁ ++ b₂)) ∧
  (∀ (k : Byte) (bs : List (List Byte)), updateChunks k bs = update k bs.flatten)

/-- R78: the four known vectors of the source. -/
def Obligations.KnownVectors : Prop :=
  update 0x00#8 [] = 0x00#8 ∧ update 0x00#8 [0x00#8] = 0x00#8 ∧
  update 0x00#8 [0x31#8, 0x32#8, 0x33#8, 0x34#8, 0x35#8, 0x36#8, 0x37#8, 0x38#8, 0x39#8] = 0xF4#8 ∧
  update 0x00#8 [0xFF#8] = 0xF3#8

/-- R81 (derived in the spec): the table form of UPDATE. -/
def Obligations.TableFormOfUpdate : Prop :=
  ∀ (k : Byte) (b : List Byte), update k b = updateTable k b

/-- R82 (derived in the spec): the laws of Update: linear over exclusive or for buffers of equal length, so that
the seed's effect is separable; leading zero bytes do nothing from the zero seed; a message followed by its own
checksum gives zero; for a fixed buffer a bijection of the seeds. (The rule's remark on leading zero bytes from a
non-zero seed is `LeadingZerosFromAnySeed`, log 16.) -/
def Obligations.UpdateLaws : Prop :=
  (∀ (k m : Byte) (b e : List Byte), b.length = e.length →
    update (k ^^^ m) (xorBytes b e) = update k b ^^^ update m e) ∧
  (∀ (k : Byte) (b : List Byte), update k b = update 0x00#8 b ^^^ update k (zeros b.length)) ∧
  (∀ n : Nat, update 0x00#8 (zeros n) = 0x00#8) ∧
  (∀ (n : Nat) (b : List Byte), update 0x00#8 (zeros n ++ b) = update 0x00#8 b) ∧
  (∀ (k : Byte) (b : List Byte), update k (b ++ [update k b]) = 0x00#8) ∧
  (∀ b : List Byte, Function.Bijective fun k => update k b)

/-- When leading zero bytes leave the checksum alone: from the seeds 0x00 and 0xFD always, from every other seed
exactly where their number is a multiple of 127. The remark of spec/42_update.md section 4, "With a non-zero seed they
do" (change the checksum), leaves out 0xFD and the multiples of 127; the model follows the pseudocode of its section 1
(log 16). -/
def Obligations.LeadingZerosFromAnySeed : Prop :=
  ∀ (k : Byte) (m : Nat) (b : List Byte),
    update k (zeros m ++ b) = update k b ↔ k = 0x00#8 ∨ k = 0xFD#8 ∨ 127 ∣ m

/-- The algebraic reading of R9 (general knowledge, marked so by the spec; log 14): UPDATE from the zero seed is the
remainder of the message polynomial times x^8 divided by x^8 + x^2 + x + 1 over GF(2); from a seed k, the remainder of
that plus k's polynomial carried past the whole message. -/
def Obligations.UpdateIsThePolynomialRemainder : Prop :=
  divisorPoly = Polynomial.X ^ 8 + Polynomial.X ^ 2 + Polynomial.X + 1 ∧
  (∀ b : List Byte, bytePoly (update 0x00#8 b) = (messagePoly b * Polynomial.X ^ 8) %ₘ divisorPoly) ∧
  (∀ (k : Byte) (b : List Byte), bytePoly (update k b) =
    (bytePoly k * Polynomial.X ^ (8 * b.length) + messagePoly b * Polynomial.X ^ 8) %ₘ divisorPoly)

/-! ### Listings and pseudo-instructions -/

/-- R46: the expansions, their lengths in steps, and their meanings, with HOLD steps inserted anywhere. -/
def Obligations.PseudoInstructionsMeanWhatTheyExpandTo : Prop :=
  (∀ (k : Byte) (b : List Byte), Pseudo.expand (.update k b) = .seed k :: b.map .byte) ∧
  (∀ b : List Byte, Pseudo.expand (.cont b) = b.map .byte) ∧
  (∀ b : List Byte, Pseudo.expand (.fresh b) = Pseudo.expand (.update 0x00#8 b)) ∧
  Pseudo.expand .nop = [.hold] ∧
  (∀ (k : Byte) (b : List Byte), (Pseudo.expand (.update k b)).length = b.length + 1 ∧
    (Pseudo.expand (.cont b)).length = b.length) ∧
  (∀ (v : Byte) (q : Pseudo) (ls : List Line) (rest : List Pins),
    ls.filter (· != .hold) = (Pseudo.expand q).filter (· != .hold) →
    run ls.length { crc := .holds v, inputs := assemble ls ++ rest } =
      .next { crc := .holds (match q with
        | .update k b => update k b
        | .cont b => update v b
        | .fresh b => update 0x00#8 b
        | .nop => v), inputs := rest })

/-- A listing is read as it is written, each line one step of the inputs its decoder event names, with the words
R45 gives (the choices of spelling are log 13). -/
def Obligations.ListingRoundTrip : Prop :=
  (∀ ls : List Line, parseListing (renderListing ls) = .ok ls) ∧
  (∀ ls : List Line, (assemble ls).map decodePins = ls.map Line.event) ∧
  (∀ k : Byte, (Line.pins (.seed k)).word = 0x100#10 ||| k.setWidth 10) ∧
  (∀ c : Byte, (Line.pins (.byte c)).word = 0x200#10 ||| c.setWidth 10) ∧
  (Line.pins .hold).word = 0x000#10
end

