-- ==== Sys2Proof/Laws/BitStep.lean ====
section
/-! SUPPORT. Small lemmas of the bit step and the byte step. -/

namespace Sys2Proof.Machine

@[simp] theorem bitSteps_nil (r : Byte) : bitSteps r [] = r := rfl

@[simp] theorem bitSteps_cons (r : Byte) (d : Bool) (ds : List Bool) :
    bitSteps r (d :: ds) = bitSteps (bitStep r d) ds := rfl

/-- A mask with one bit set tests that bit. -/
theorem dataBit_of_mask (c : Byte) :
    dataBit c 0x80#8 = c.getLsbD 7 ∧ dataBit c 0x40#8 = c.getLsbD 6 ∧ dataBit c 0x20#8 = c.getLsbD 5 ∧
    dataBit c 0x10#8 = c.getLsbD 4 ∧ dataBit c 0x08#8 = c.getLsbD 3 ∧ dataBit c 0x04#8 = c.getLsbD 2 ∧
    dataBit c 0x02#8 = c.getLsbD 1 ∧ dataBit c 0x01#8 = c.getLsbD 0 := by
  revert c; decide

/-- `REFIN` describes the order in which BYTE consumes its operand (R4, R23). -/
theorem inputBits_follow_refIn (c : Byte) :
    inputBits c = (if Config.refIn then id else List.reverse) ((List.range 8).map c.getLsbD) := by
  obtain ⟨h7, h6, h5, h4, h3, h2, h1, h0⟩ := dataBit_of_mask c
  simp [inputBits, bitMasks, Config.refIn, List.range, List.range.loop, h7, h6, h5, h4, h3, h2, h1, h0]

/-- Bit i of the result of a shift: the bit below it, and a 0 at the bottom (R52). -/
theorem shiftLeftOne_getLsbD (r : Byte) (i : Nat) :
    (shiftLeftOne r).getLsbD i = (decide (i < 8) && (decide (0 < i) && r.getLsbD (i - 1))) := by
  cases i <;> simp [shiftLeftOne]

/-- A bit of a bit step, one by one: the tap pattern is that of `POLY`. -/
theorem bitStep_getLsbD (r : Byte) (d : Bool) (i : Nat) :
    (bitStep r d).getLsbD i =
      ((shiftLeftOne r).getLsbD i ^^ (feedbackBit r d && Config.poly.getLsbD i)) := by
  cases h : feedbackBit r d <;> simp [bitStep, h]

/-- The feedback bit is linear in both arguments. -/
theorem feedbackBit_xor (r s : Byte) (d e : Bool) :
    feedbackBit (r ^^^ s) (d ^^ e) = (feedbackBit r d ^^ feedbackBit s e) := by
  simp only [feedbackBit, BitVec.getLsbD_xor]
  cases r.getLsbD 7 <;> cases s.getLsbD 7 <;> cases d <;> cases e <;> rfl

@[simp] theorem update_nil (k : Byte) : update k [] = k := rfl

@[simp] theorem update_cons (k c : Byte) (bs : List Byte) :
    update k (c :: bs) = update (byteStep k c) bs := rfl

end Sys2Proof.Machine
end

