-- ==== Sys2Proof/Laws/Decode.lean ====
section
/-! SUPPORT. Small lemmas of the word's fields, the decoder and the encoder. -/

namespace Sys2Proof

/-- Bit i of a word: the operand below bit 8, the opcode from bit 8 on (R38). -/
theorem joinWord_getLsbD (op : Opcode) (x : Byte) (i : Nat) :
    (joinWord op x).getLsbD i = if i < 8 then x.getLsbD i else op.getLsbD (i - 8) :=
  BitVec.getLsbD_append

@[simp] theorem opcode_joinWord (op : Opcode) (x : Byte) : opcode (joinWord op x) = op := by
  apply BitVec.eq_of_getLsbD_eq
  intro i hi
  simp [opcode, joinWord_getLsbD, hi]

@[simp] theorem operand_joinWord (op : Opcode) (x : Byte) : operand (joinWord op x) = x := by
  apply BitVec.eq_of_getLsbD_eq
  intro i hi
  simp [operand, joinWord_getLsbD, hi]

/-- No bit of a word is outside its two fields (R38). -/
@[simp] theorem joinWord_fields (w : CommandWord) : joinWord (opcode w) (operand w) = w := by
  apply BitVec.eq_of_getLsbD_eq
  intro i hi
  rw [joinWord_getLsbD]
  split
  · simp_all [operand]
  · have h1 : 8 + (i - 8) = i := by omega
    have h2 : i - 8 < 2 := by omega
    simp [opcode, h1, h2]

@[simp] theorem decodeFields_hold (x : Byte) : decodeFields 0b00#2 x = .hold := rfl
@[simp] theorem decodeFields_seed (x : Byte) : decodeFields 0b01#2 x = .seed x := rfl
@[simp] theorem decodeFields_byte (x : Byte) : decodeFields 0b10#2 x = .byte x := rfl
@[simp] theorem decodeFields_reserved (x : Byte) : decodeFields 0b11#2 x = .reserved := rfl

/-- The four opcodes. -/
theorem opcode_cases (op : Opcode) : op = 0b00#2 ∨ op = 0b01#2 ∨ op = 0b10#2 ∨ op = 0b11#2 := by
  revert op; decide

@[simp] theorem decodePins_reset {p : Pins} (h : p.rst = true) : decodePins p = .reset := by
  simp [decodePins, h]

@[simp] theorem decodePins_command {p : Pins} (h : p.rst = false) :
    decodePins p = .command (decodeFields p.cmd p.din) := by simp [decodePins, h]

@[simp] theorem decodePins_ofWord (w : CommandWord) : decodePins (Pins.ofWord w) = .command (decode w) := rfl

@[simp] theorem word_ofWord (w : CommandWord) : (Pins.ofWord w).word = w := joinWord_fields w

/-- The decoder of a word and of the pins that carry it agree. -/
theorem decode_word (p : Pins) : decode p.word = decodeFields p.cmd p.din := by
  simp [decode, Pins.word]

/-- A triple the host may present is a reset or carries a command that is not the reserved one (R115). -/
theorem permitted_iff (p : Pins) :
    p.permitted = true ↔ p.rst = true ∨ (decodeFields p.cmd p.din).wellFormed = true := by
  rcases opcode_cases p.cmd with h | h | h | h <;> simp [Pins.permitted, h, Instr.wellFormed]

end Sys2Proof
end

