-- ==== Sys2Proof/Laws/State.lean ====
section
/-! SUPPORT. One lemma per field per update of State, so that no proof unfolds a record update. -/

namespace Sys2Proof.Machine

@[simp] theorem State.reset_crc : State.reset.crc = .holds Config.resetValue := rfl
@[simp] theorem State.reset_inputs : State.reset.inputs = [] := rfl
@[simp] theorem State.powerUp_crc : State.powerUp.crc = .unwritten := rfl
@[simp] theorem State.powerUp_inputs : State.powerUp.inputs = [] := rfl

@[simp] theorem State.writeCrc_crc (s : State) (v : Byte) : (s.writeCrc v).crc = .holds v := rfl
@[simp] theorem State.writeCrc_inputs (s : State) (v : Byte) : (s.writeCrc v).inputs = s.inputs := rfl

@[simp] theorem State.takeReset_crc (s : State) : s.takeReset.crc = .holds Config.resetValue := rfl
@[simp] theorem State.takeReset_inputs (s : State) : s.takeReset.inputs = s.inputs := rfl

@[simp] theorem State.withFetchWord_crc (s : State) (nbits w : Nat) :
    (s.withFetchWord nbits w).crc = s.crc := rfl
@[simp] theorem State.withFetchWord_inputs (s : State) (nbits w : Nat) :
    (s.withFetchWord nbits w).inputs = Pins.ofWord (BitVec.ofNat 10 w) :: s.inputs.tail := rfl

/-- Two writes: the later one stands. -/
@[simp] theorem State.writeCrc_writeCrc (s : State) (v w : Byte) :
    (s.writeCrc v).writeCrc w = s.writeCrc w := rfl

/-- Writing what CRC already holds changes nothing. -/
theorem State.writeCrc_same (s : State) (v : Byte) (h : s.crc = .holds v) : s.writeCrc v = s := by
  cases s; simp_all [State.writeCrc]

end Sys2Proof.Machine
end

