-- ==== Sys2Proof/Laws/Ops.lean ====
section
/-! SUPPORT. One lemma for each shared operation, saying everything it can do. -/

namespace Sys2Proof.Machine

@[simp] theorem State.readCrc_of_holds {s : State} {v : Byte} (h : s.crc = .holds v) :
    s.readCrc = .ok v := by simp [State.readCrc, h]

@[simp] theorem State.readCrc_of_unwritten {s : State} (h : s.crc = .unwritten) :
    s.readCrc = .error .unwrittenAccumulator := by simp [State.readCrc, h]

/-- The read gives v exactly where CRC holds v. -/
theorem State.readCrc_ok_iff (s : State) (v : Byte) : s.readCrc = .ok v ↔ s.crc = .holds v := by
  cases h : s.crc <;> simp [State.readCrc, h]

@[simp] theorem State.updateCrc_of_holds {s : State} {v : Byte} (f : Byte → Byte) (h : s.crc = .holds v) :
    s.updateCrc f = .next (s.writeCrc (f v)) := by simp [State.updateCrc, h]

@[simp] theorem State.updateCrc_of_unwritten {s : State} (f : Byte → Byte) (h : s.crc = .unwritten) :
    s.updateCrc f = .fault .unwrittenAccumulator := by simp [State.updateCrc, h]

/-- Everything an update of CRC that answers a next state can have done. -/
theorem State.updateCrc_next_iff (s t : State) (f : Byte → Byte) :
    s.updateCrc f = .next t ↔ ∃ v, s.crc = .holds v ∧ t = s.writeCrc (f v) := by
  cases h : s.crc <;> simp [h, eq_comm]

/-- An update of CRC is never refused. -/
theorem State.updateCrc_not_refused (s : State) (f : Byte → Byte) (e : Refusal) :
    s.updateCrc f ≠ .refused e := by
  cases h : s.crc <;> simp [h]

@[simp] theorem State.nextInput_cons {s : State} {p : Pins} {rest : List Pins} (h : s.inputs = p :: rest) :
    s.nextInput = some (p, { s with inputs := rest }) := by simp [State.nextInput, h]

@[simp] theorem State.nextInput_nil {s : State} (h : s.inputs = []) : s.nextInput = none := by
  simp [State.nextInput, h]

/-- `REFOUT` and `XOROUT` describe the port (R4, R36). -/
theorem crcPort_follows_output_parameters (s : State) (v : Byte) (h : s.crc = .holds v) :
    s.crcPort = .ok ((if Config.refOut then v.reverse else v) ^^^ Config.xorOut) := by
  simp [State.crcPort, h, Config.refOut, Config.xorOut]

end Sys2Proof.Machine
end

