-- ==== Sys2Proof/Laws/PerInstr.lean ====
section
/-! SUPPORT. Facts about the commands as data, one lemma per constructor of Instr. -/

/-- The word a command is written with selects the command's own row of the opcode map (R39). -/
def Sys2Proof.Laws.OwnRow.Statement (i : Sys2Proof.Instr) : Prop :=
  ∃ row ∈ Sys2Proof.opcodeRows, row.mnemonic = i.mnemonic ∧ row.selectedBy (Sys2Proof.encode i) = true

namespace Sys2Proof.Laws.OwnRow

theorem hold : Statement .hold := by
  refine ⟨_, List.mem_cons_self, rfl, ?_⟩; decide

theorem seed (k : Byte) : Statement (.seed k) := by
  refine ⟨_, List.mem_cons_of_mem _ List.mem_cons_self, rfl, ?_⟩
  revert k; decide

theorem byte (c : Byte) : Statement (.byte c) := by
  refine ⟨_, List.mem_cons_of_mem _ (List.mem_cons_of_mem _ List.mem_cons_self), rfl, ?_⟩
  revert c; decide

theorem reserved : Statement .reserved := by
  refine ⟨_, List.mem_cons_of_mem _ (List.mem_cons_of_mem _ (List.mem_cons_of_mem _ List.mem_cons_self)), rfl, ?_⟩
  decide

end Sys2Proof.Laws.OwnRow
end

