-- ==== Sys2Proof/Laws/Step.lean ====
section
/-! SUPPORT. What exec, one step and a run can do, said once. -/

namespace Sys2Proof.Machine

/-- Everything a command that answers a next state can have done. -/
theorem exec_next_cases {i : Instr} {s t : State} (h : exec i s = .next t) :
    (i = .hold ∧ t = s) ∨ (∃ k, i = .seed k ∧ t = s.writeCrc k) ∨
    (∃ c v, i = .byte c ∧ s.crc = .holds v ∧ t = s.writeCrc (byteStep v c)) := by
  cases i with
  | hold => exact .inl ⟨rfl, by injection h with h; exact h.symm⟩
  | seed k => exact .inr (.inl ⟨k, rfl, by injection h with h; exact h.symm⟩)
  | byte c =>
    obtain ⟨v, hv, ht⟩ := (State.updateCrc_next_iff s t _).1 h
    exact .inr (.inr ⟨c, v, rfl, hv, ht⟩)
  | reserved => simp [exec, execReserved] at h

/-- The only way a command faults. -/
theorem exec_fault_cases {i : Instr} {s : State} {e : Fault} (h : exec i s = .fault e) :
    (∃ c, i = .byte c) ∧ s.crc = .unwritten ∧ e = .unwrittenAccumulator := by
  cases i with
  | hold => simp [exec, execHold] at h
  | seed k => simp [exec, execSeed] at h
  | byte c =>
    cases hc : s.crc with
    | unwritten =>
      rw [show exec (.byte c) s = .fault .unwrittenAccumulator from State.updateCrc_of_unwritten _ hc] at h
      injection h with h
      exact ⟨⟨c, rfl⟩, rfl, h.symm⟩
    | holds v => simp [exec, execByte, hc] at h
  | reserved => simp [exec, execReserved] at h

theorem step_nil {s : State} (h : s.inputs = []) : step s = .refused .endOfRun := by
  simp [step, nextEdge, h]

/-- A step is the edge at which the first of the coming triples is sampled. -/
theorem step_cons {s : State} {p : Pins} {rest : List Pins} (h : s.inputs = p :: rest) :
    step s = clockEdge p { s with inputs := rest } := by
  simp only [step, nextEdge, State.nextInput_cons h]

/-- The two kinds of edge (R106). -/
theorem clockEdge_eq (p : Pins) (s : State) :
    clockEdge p s = if p.rst then .next s.takeReset else exec (decode p.word) s := by
  cases h : p.rst <;> simp [clockEdge, h, decode_word]

/-- Everything a step that answers a next state can have done. -/
theorem step_next_cases {s t : State} (h : step s = .next t) :
    ∃ p rest, s.inputs = p :: rest ∧
      ((p.rst = true ∧ t = State.takeReset { s with inputs := rest }) ∨
       (p.rst = false ∧ exec (decode p.word) { s with inputs := rest } = .next t)) := by
  cases hs : s.inputs with
  | nil => simp [step_nil hs] at h
  | cons p rest =>
    refine ⟨p, rest, rfl, ?_⟩
    rw [step_cons hs, clockEdge_eq] at h
    cases hr : p.rst with
    | true => exact .inl ⟨rfl, by simpa [hr, eq_comm] using h⟩
    | false => exact .inr ⟨rfl, by simpa [hr] using h⟩

@[simp] theorem run_zero (s : State) : run 0 s = .next s := rfl

theorem run_succ_of_next {s t : State} {n : Nat} (h : step s = .next t) : run (n + 1) s = run n t := by
  simp [run, h]

theorem observations_succ_of_next {s t : State} {n : Nat} (h : step s = .next t) :
    observations (n + 1) s = t.crcPort :: observations n t := by
  simp [observations, h]

/-- A run is the host's own run of the machine. -/
theorem run_eq_core_run (n : Nat) (s : State) : run n s = Host.Core.run Sys2Proof.core n s := by
  induction n generalizing s with
  | zero => rfl
  | succ n ih =>
    cases h : step s with
    | next t =>
      have hc : Sys2Proof.core.step s = .next t := h
      rw [run_succ_of_next h, ih]; simp only [Host.Core.run, hc]; rfl
    | fault e =>
      have hc : Sys2Proof.core.step s = .fault e := h
      simp only [run, h, Host.Core.run, hc]; rfl
    | refused e =>
      have hc : Sys2Proof.core.step s = .refused e := h
      simp only [run, h, Host.Core.run, hc]; rfl

end Sys2Proof.Machine
end

