-- ==== Sys2Proof/Tests/Slice0.lean ====
section
/-! SUPPORT. The model's own tests, each about at most one step or one function, with the expected value printed in
spec/95_test_vectors.md (the section is named) or in the rule named; the smoke tests of WellFormed; and for every
statement with hypotheses a witness that meets them. -/

namespace Sys2Proof.Tests

open Sys2Proof Sys2Proof.Machine

/-- A state that holds v, with the word W on the pins of the next step. -/
def onPins (v : Accumulator) (rst : Bool) (W : CommandWord) : State :=
  { crc := v, inputs := [{ rst := rst, cmd := opcode W, din := operand W }] }

/-- What CRC holds after an outcome; none where it is no next state. -/
def crcAfter : Host.Outcome State Fault Refusal → Option Accumulator
  | .next t => some t.crc
  | .fault _ => none
  | .refused _ => none

/-- The fault of an outcome, if it is one. -/
def faultOf : Host.Outcome State Fault Refusal → Option Fault
  | .fault e => some e
  | .next _ => none
  | .refused _ => none

/-- The refusal of an outcome, if it is one. -/
def refusalOf : Host.Outcome State Fault Refusal → Option Refusal
  | .refused e => some e
  | .next _ => none
  | .fault _ => none

/-! ### WellFormed: an ill-formed term for each check, and a well-formed neighbour (R115) -/

theorem test_reserved_command_is_not_well_formed : Instr.wellFormed .reserved = false := by decide
theorem test_defined_command_is_well_formed : Instr.wellFormed (.byte 0xFF#8) = true := by decide
theorem test_reserved_word_is_not_permitted :
    Pins.permitted { rst := false, cmd := 0b11#2, din := 0x00#8 } = false := by decide
theorem test_reserved_word_under_reset_is_permitted :
    Pins.permitted { rst := true, cmd := 0b11#2, din := 0xFF#8 } = true := by decide
theorem test_byte_before_seed_is_not_safe :
    safeInputs false [Pins.ofWord 0x000#10, Pins.ofWord 0x231#10] = false := by decide
theorem test_seed_makes_byte_safe :
    safeInputs false [Pins.ofWord 0x1A5#10, Pins.ofWord 0x231#10] = true := by decide

/-! ### Decoding: words written out from R38 and R39, bit 9 first -/

theorem test_decode_hold_ignores_operand : decode 0b0010100111#10 = .hold := by decide
theorem test_decode_seed : decode 0b0110100101#10 = .seed 0xA5#8 := by decide
theorem test_decode_byte : decode 0b1000110001#10 = .byte 0x31#8 := by decide
theorem test_decode_reserved : decode 0b1101010101#10 = .reserved := by decide
theorem test_decode_table_word : decodeTableWord 16 0x239 = some (.byte 0x39#8) := by decide
theorem test_decode_rejects_eleven_bits : decodeNat 0x400 = .error .wordTooWide := rfl
/-- Section 2.6: "`SEED 0xC0` = 1C0; `BYTE 0x39` = 239; `HOLD` = 000". -/
theorem test_encode_printed_words :
    encode (.seed 0xC0#8) = 0x1C0#10 ∧ encode (.byte 0x39#8) = 0x239#10 ∧ encode .hold = 0x000#10 := by decide

/-! ### One step (section 2.6) -/

theorem test_reset_beats_byte : crcAfter (step (onPins (.holds 0x5A#8) true 0x2FF#10)) = some (.holds 0x00#8) := by
  decide
theorem test_reset_beats_reserved :
    crcAfter (step (onPins (.holds 0x5A#8) true 0x300#10)) = some (.holds 0x00#8) := by decide
theorem test_hold_with_operand :
    crcAfter (step (onPins (.holds 0x5A#8) false 0x0FF#10)) = some (.holds 0x5A#8) := by decide
theorem test_hold_keeps_unwritten :
    crcAfter (step (onPins .unwritten false 0x000#10)) = some .unwritten := by decide
theorem test_seed : crcAfter (step (onPins (.holds 0x5A#8) false 0x1FF#10)) = some (.holds 0xFF#8) := by decide
theorem test_seed_ends_unwritten :
    crcAfter (step (onPins .unwritten false 0x1A5#10)) = some (.holds 0xA5#8) := by decide
theorem test_byte_zero : crcAfter (step (onPins (.holds 0x5A#8) false 0x200#10)) = some (.holds 0x81#8) := by decide
theorem test_byte_on_unwritten :
    faultOf (step (onPins .unwritten false 0x231#10)) = some .unwrittenAccumulator := by decide
theorem test_reserved_is_refused :
    refusalOf (step (onPins (.holds 0x5A#8) false 0x3FF#10)) = some .reservedOpcode := by decide
theorem test_first_step_after_reset_runs_the_word :
    crcAfter (step (State.reset.withFetchWord 16 0x231)) = some (.holds 0x97#8) := by decide

/-! ### The functions -/

/-- Section 2.1, all fourteen values, and R55. -/
theorem test_bitStep_corners :
    [bitStep 0x00#8 false, bitStep 0x80#8 false, bitStep 0xFF#8 false, bitStep 0x7F#8 false, bitStep 0x40#8 false,
     bitStep 0x01#8 true, bitStep 0xA5#8 true, bitStep 0x00#8 true, bitStep 0x80#8 true, bitStep 0xFF#8 true,
     bitStep 0x7F#8 true, bitStep 0x01#8 false, bitStep 0x83#8 false, bitStep 0x5A#8 true] =
    [0x00#8, 0x07#8, 0xF9#8, 0xFE#8, 0x80#8, 0x05#8, 0x4A#8, 0x07#8, 0x00#8, 0xFE#8, 0xF9#8, 0x02#8, 0x01#8,
     0xB3#8] := by decide

/-- Section 2.2, the third trace: `ByteStep(A5, 3C)` bit by bit. -/
theorem test_byteStep_trace :
    (List.range 8).map (fun n => bitSteps 0xA5#8 ((inputBits 0x3C#8).take (n + 1))) =
      [0x4D#8, 0x9A#8, 0x34#8, 0x6F#8, 0xD9#8, 0xB2#8, 0x63#8, 0xC6#8] := by decide

/-- Section 2.3: the values of the variable that grows past 8 bits. -/
theorem test_late_mask_trace :
    (List.range 8).map (fun n => ((inputBits 0x3C#8).take (n + 1)).foldl bitStepWide 0xA5) =
      [0x14D, 0x29A, 0x534, 0xA6F, 0x14D9, 0x29B2, 0x5363, 0xA6C6] := by decide

/-- Section 2.5, U14: intermediates 14, 26, C1, CA. -/
theorem test_update_deadbeef : update 0x00#8 [0xDE#8, 0xAD#8, 0xBE#8, 0xEF#8] = 0xCA#8 := by decide +kernel
/-- Section 2.5, U11 and U12: the order of the bytes matters. -/
theorem test_update_order :
    update 0x00#8 [0x01#8, 0x00#8] = 0x15#8 ∧ update 0x00#8 [0x00#8, 0x01#8] = 0x07#8 := by decide +kernel

/-- Section 2.4, T[FD] = FD, and section 2.5, U27, from the seed 01: the two cases of log 16. -/
theorem test_leading_zeros :
    update 0xFD#8 (zeros 1) = 0xFD#8 ∧ update 0x01#8 (zeros 5) = 0x62#8 := by decide +kernel

/-! ### The listing (R45, R46; section 3, P5) -/

theorem test_listing_with_comment_and_pseudo :
    parseListing "SEED 0xA5 ; begins\n\nNOP\nCONT [0x3C]\nUPDATE 0xC6, [0xC6, 0x00]\nRESET".toList =
      .ok [.seed 0xA5#8, .hold, .byte 0x3C#8, .seed 0xC6#8, .byte 0xC6#8, .byte 0x00#8, .reset] := by rfl
theorem test_listing_operand_not_writable :
    parseListing "BYTE 0x100".toList = .error .operandNotWritable := by rfl

/-! ### Witnesses: for each statement with hypotheses, values that meet them -/

/-- The triple of the word W with `rst` = 0. -/
abbrev pins (W : CommandWord) : Pins := Pins.ofWord W

/-- The triple of the word W with `rst` = 1. -/
abbrev resetPins (W : CommandWord) : Pins := { Pins.ofWord W with rst := true }

theorem witness_ResetValueAndPowerUpCondition :
    (∃ (s : State) (p : Pins) (rest : List Pins), s.inputs = p :: rest ∧ p.rst = true) ∧
    State.powerUp.crc = .unwritten :=
  ⟨⟨onPins .unwritten true 0x2FF#10, _, [], rfl, rfl⟩, rfl⟩

theorem witness_ResetStepOverridesCommandWord :
    (∃ (s : State) (p : Pins) (rest : List Pins), s.inputs = p :: rest ∧ p.rst = true ∧ p.cmd = 0b11#2) ∧
    (∃ (s : State) (p : Pins) (rest : List Pins), s.inputs = p :: rest ∧ p.rst = false) :=
  ⟨⟨onPins (.holds 0x5A#8) true 0x300#10, _, [], rfl, rfl, by decide⟩,
   ⟨onPins (.holds 0x5A#8) false 0x2FF#10, _, [], rfl, rfl⟩⟩

theorem witness_UnwrittenAccumulatorBeforeFirstReset :
    ∃ (s : State) (p : Pins) (rest : List Pins), s.crc = .unwritten ∧ s.inputs = p :: rest ∧ p.rst = true :=
  ⟨onPins .unwritten true 0x231#10, _, [], rfl, rfl, rfl⟩

theorem witness_PortIsPlainViewOfRegister :
    ∃ (s t : State) (v : Byte), step s = .next t ∧ t.crc = .holds v ∧ t.crcPort = .ok v :=
  ⟨onPins (.holds 0x00#8) false 0x1FF#10, { crc := .holds 0xFF#8, inputs := [] }, 0xFF#8, rfl, rfl, rfl⟩

theorem witness_ResultIsReadAfterTheLastStep :
    ∃ (s : State) (v : Byte) (p : Pins) (rest : List Pins) (c : Byte),
      s.crc = .holds v ∧ s.inputs = p :: rest ∧ decodePins p = .command (.byte c) :=
  ⟨onPins (.holds 0xC7#8) false 0x239#10, 0xC7#8, _, [], 0x39#8, rfl, rfl, by decide⟩

theorem witness_DecodeEncodeRoundTrip :
    (1024 ≤ 1024) ∧ opcode 0x1FF#10 = 0b01#2 ∧ opcode 0x200#10 = 0b10#2 ∧
    ¬ (opcode 0x0FF#10 = 0b01#2 ∨ opcode 0x0FF#10 = 0b10#2) := by decide

theorem witness_BitOrderMostSignificantFirst :
    ∃ (s : State) (v w : Byte), s.crc = .holds v ∧ s.crcPort = .ok w :=
  ⟨State.reset, 0x00#8, 0x00#8, rfl, rfl⟩

theorem witness_HoldLeavesEverything :
    0x0FF#10 &&& 0x300#10 = 0x000#10 ∧
    ∃ (s : State) (ps rest : List Pins), s.inputs = ps ++ rest ∧ ps.length = 2 ∧
      ∀ p ∈ ps, p.rst = false ∧ p.cmd = 0b00#2 :=
  ⟨by decide, { crc := .unwritten, inputs := [pins 0x000#10, pins 0x0FF#10, pins 0x300#10] },
   [pins 0x000#10, pins 0x0FF#10], [pins 0x300#10], rfl, rfl, by decide⟩

theorem witness_SeedLoadsOperand :
    0x100#10 &&& 0x300#10 = 0x100#10 ∧ 0x1FF#10 &&& 0x300#10 = 0x100#10 ∧ State.reset.crc = .holds 0x00#8 := by
  decide

theorem witness_ByteFoldsEightBitSteps :
    0x200#10 &&& 0x300#10 = 0x200#10 ∧ 0x2FF#10 &&& 0x300#10 = 0x200#10 ∧ State.reset.crc = .holds 0x00#8 := by
  decide

theorem witness_ReservedOpcodeIsRefused :
    0x300#10 &&& 0x300#10 = 0x300#10 ∧ 0x3FF#10 &&& 0x300#10 = 0x300#10 ∧
    ∃ (s : State) (p : Pins) (rest : List Pins), s.inputs = p :: rest ∧ p.rst = false ∧ p.cmd = 0b11#2 :=
  ⟨by decide, by decide, onPins (.holds 0x5A#8) false 0x300#10, _, [], rfl, rfl, by decide⟩

theorem witness_DefinedCommandsAreTotal :
    Instr.wellFormed .hold = true ∧ Instr.wellFormed (.seed 0xFF#8) = true ∧
    Instr.wellFormed (.byte 0x00#8) = true ∧ CrcWritten State.reset := by decide

theorem witness_CommandFrame :
    exec .hold State.powerUp = .next State.powerUp ∧
    exec (.seed 0xFF#8) State.powerUp = .next { crc := .holds 0xFF#8, inputs := [] } ∧
    exec (.byte 0x31#8) State.reset = .next { crc := .holds 0x97#8, inputs := [] } := ⟨rfl, rfl, rfl⟩

theorem witness_StepRunsPresentedCommand :
    (∃ (s : State) (p : Pins) (rest : List Pins), s.inputs = p :: rest ∧ p.rst = false) ∧
    decodeTableWord 16 0x000 = some .hold ∧ decodeTableWord 16 0x3FF = some .reserved :=
  ⟨⟨onPins .unwritten false 0x1A5#10, _, [], rfl, rfl⟩, by decide, by decide⟩

theorem witness_StepIsTheTransitionFunction_cases :
    step (onPins (.holds 0xFF#8) false 0x200#10) = .next { crc := .holds 0xF3#8, inputs := [] } ∧
    step (onPins .unwritten false 0x200#10) = .fault .unwrittenAccumulator ∧
    step (onPins .unwritten false 0x3FF#10) = .refused .reservedOpcode := ⟨rfl, rfl, rfl⟩

theorem witness_StepIsTheTransitionFunction :
    (∃ (m n : Nat) (s t : State), 0 < m ∧ 0 < n ∧ run m s = .next t ∧ t.inputs ≠ []) ∧ State.reset.inputs = [] :=
  ⟨⟨1, 1, { crc := .holds 0xFF#8, inputs := [pins 0x200#10, pins 0x2FF#10] },
    { crc := .holds 0xF3#8, inputs := [pins 0x2FF#10] }, by decide, by decide, rfl, by decide⟩, rfl⟩

theorem witness_RunEndsWhereInputsEnd : State.powerUp.inputs = [] := rfl

theorem witness_StepTakesExactlyOneInput :
    run 1 { crc := .holds 0xFF#8, inputs := [pins 0x200#10, pins 0x300#10] } =
      .next { crc := .holds 0xF3#8, inputs := [pins 0x300#10] } := rfl

theorem witness_StopsAreExactlyThese :
    step (onPins .unwritten false 0x231#10) = .fault .unwrittenAccumulator ∧
    step (onPins .unwritten false 0x300#10) = .refused .reservedOpcode ∧
    step State.reset = .refused .endOfRun := ⟨rfl, rfl, rfl⟩

theorem witness_NextCrcDependsOnlyOnCrcAndCommand :
    ∃ (s s' : State) (p p' : Pins) (rest rest' : List Pins), s.inputs = p :: rest ∧ s'.inputs = p' :: rest' ∧
      decodePins p = decodePins p' ∧ decodePins p = .command (.seed 0x5A#8) ∧ s.crc ≠ s'.crc ∧ rest ≠ rest' :=
  ⟨{ crc := .unwritten, inputs := [pins 0x15A#10, pins 0x300#10] }, onPins (.holds 0x01#8) false 0x15A#10,
   _, _, _, [], rfl, rfl, by decide, by decide, by decide, by decide⟩

theorem witness_NextCrcAfterReset :
    ∃ (s s' : State) (p p' : Pins) (rest rest' : List Pins), s.inputs = p :: rest ∧ s'.inputs = p' :: rest' ∧
      decodePins p = decodePins p' ∧ decodePins p = .reset ∧ s.crc ≠ s'.crc ∧ p ≠ p' :=
  ⟨onPins .unwritten true 0x300#10, onPins (.holds 0xFF#8) true 0x2AA#10, _, _, [], [], rfl, rfl, by decide,
   by decide, by decide, by decide⟩

theorem witness_NextCrcFromEqualCrc :
    ∃ (s s' : State) (p p' : Pins) (rest rest' : List Pins) (t : State), s.inputs = p :: rest ∧
      s'.inputs = p' :: rest' ∧ decodePins p = decodePins p' ∧ s.crc = s'.crc ∧ step s = .next t ∧ p ≠ p' :=
  ⟨onPins (.holds 0x5A#8) false 0x000#10, onPins (.holds 0x5A#8) false 0x0FF#10, _, _, [], [],
   { crc := .holds 0x5A#8, inputs := [] }, rfl, rfl, by decide, rfl, rfl, by decide⟩

theorem witness_StepKeepsCrcWritten :
    CrcWritten (onPins (.holds 0x5A#8) false 0x25A#10) ∧
    step (onPins (.holds 0x5A#8) false 0x25A#10) = .next { crc := .holds 0x00#8, inputs := [] } := ⟨rfl, rfl⟩

theorem witness_NoRunFromWrittenCrcFaults : CrcWritten State.reset ∧ ¬ CrcWritten State.powerUp := by decide

theorem witness_RunsCompleteExactlyWhenInputsAreSafe :
    safeInputs State.powerUp.crc.written [pins 0x000#10, pins 0x1FF#10, pins 0x200#10] = true ∧
    safeInputs State.powerUp.crc.written [pins 0x000#10, pins 0x200#10] = false ∧
    safeInputs State.reset.crc.written [pins 0x300#10] = false := by decide

theorem witness_PortAfterEachStepIsTheFold :
    [pins 0x0A7#10, pins 0x1FF#10, pins 0x200#10, resetPins 0x300#10].map decodePins =
      [Line.hold, Line.seed 0xFF#8, Line.byte 0x00#8, Line.reset].map Line.event := by decide

theorem witness_HoldStepsChangeNoResult :
    [Line.hold, .byte 0x31#8, .hold].filter (· != .hold) = [Line.byte 0x31#8].filter (· != .hold) ∧
    [pins 0x000#10, pins 0x231#10, pins 0x0FF#10].map decodePins =
      [Line.hold, .byte 0x31#8, .hold].map Line.event ∧
    [pins 0x231#10].map decodePins = [Line.byte 0x31#8].map Line.event := by decide

theorem witness_SeedThenBytesComputeUpdate :
    ([pins 0x000#10, pins 0x100#10, pins 0x231#10, pins 0x0A7#10].map decodePins).filter (· != .command .hold) =
      .command (.seed 0x00#8) :: [0x31#8].map (fun c => .command (.byte c)) := by decide

theorem witness_BytesAloneContinueUpdate :
    (State.reset.crc = .holds 0x00#8) ∧
    ([pins 0x0FF#10, pins 0x2FF#10].map decodePins).filter (· != .command .hold) =
      [0xFF#8].map (fun c => .command (.byte c)) ∧
    (([] : List Pins).map decodePins).filter (· != .command .hold) =
      ([] : List Byte).map (fun c => .command (.byte c)) := by decide

/-- The streams of section 3, P2: A is "123" and "4", suspended at C0; B is FF. -/
theorem witness_SuspendedStreamResumesUnchanged :
    ∃ (s : State) (k k' a : Byte) (b₁ b₂ b' : List Byte) (rest : List Pins), a = update k b₁ ∧
      s.inputs = assemble (Pseudo.expand (.update k b₁) ++ Pseudo.expand (.update k' b') ++
        .seed a :: b₂.map .byte) ++ rest ∧ a = 0xC0#8 ∧ b₂ ≠ [] ∧ b' ≠ [] :=
  ⟨{ crc := .unwritten, inputs := [pins 0x100#10, pins 0x231#10, pins 0x232#10, pins 0x233#10, pins 0x100#10,
      pins 0x2FF#10, pins 0x1C0#10, pins 0x234#10] },
   0x00#8, 0x00#8, 0xC0#8, [0x31#8, 0x32#8, 0x33#8], [0x34#8], [0xFF#8], [], by decide +kernel, by decide +kernel, rfl, by decide +kernel,
   by decide⟩

theorem witness_OnlyTraceOfBufferIsCrc :
    ∃ (s s' t t' : State) (k k' : Byte) (b b' : List Byte) (rest : List Pins),
      s.inputs = assemble (Pseudo.expand (.update k b)) ++ rest ∧
      s'.inputs = assemble (Pseudo.expand (.update k' b')) ++ rest ∧
      run (b.length + 1) s = .next t ∧ run (b'.length + 1) s' = .next t' ∧
      update k b = update k' b' ∧ b ≠ b' ∧ k ≠ k' :=
  ⟨{ crc := .unwritten, inputs := [pins 0x100#10, pins 0x231#10] }, { crc := .unwritten, inputs := [pins 0x197#10] },
   { crc := .holds 0x97#8, inputs := [] }, { crc := .holds 0x97#8, inputs := [] },
   0x00#8, 0x97#8, [0x31#8], [], [], by decide, by decide, rfl, rfl, by decide, by decide, by decide⟩

theorem witness_ShiftDiscardsTopBit :
    (0 < 7) ∧ (6 < 7) ∧ (∀ i, i < 7 → (0x80#8).getLsbD i = (0x00#8).getLsbD i) ∧ (0x80#8 ≠ 0x00#8) := by decide

theorem witness_BitStepIsAShiftRegisterWithThreeTaps : (2 ≤ 2 ∧ 2 < 7) ∧ (2 ≤ 6 ∧ 6 < 7) := by decide

theorem witness_EmptyBufferIsIdentity :
    ∃ (s : State) (k : Byte) (rest : List Pins), s.inputs = assemble (Pseudo.expand (.update k [])) ++ rest :=
  ⟨onPins .unwritten false 0x1A5#10, 0xA5#8, [], by decide⟩

theorem witness_UpdateLaws : [0x31#8, 0xFF#8].length = [0x00#8, 0x80#8].length := by decide

theorem witness_PseudoInstructionsMeanWhatTheyExpandTo :
    [Line.hold, .seed 0xA5#8, .hold, .byte 0x3C#8].filter (· != .hold) =
      (Pseudo.expand (.update 0xA5#8 [0x3C#8])).filter (· != .hold) ∧
    ([] : List Line).filter (· != .hold) = (Pseudo.expand .nop).filter (· != .hold) := by decide

end Sys2Proof.Tests
end

section
/-! Proofs of the family "state" (spec/10_state.md R18, R19): an equation for each command and for each kind of
step, the congruence of a command in CRC, and the two statements assembled from them. -/

namespace Sys2Proof.Machine

@[simp] theorem exec_hold (s : State) : exec .hold s = .next s := rfl

@[simp] theorem exec_seed (k : Byte) (s : State) : exec (.seed k) s = .next (s.writeCrc k) := rfl

theorem exec_byte_of_holds {s : State} {v : Byte} (c : Byte) (h : s.crc = .holds v) :
    exec (.byte c) s = .next (s.writeCrc (byteStep v c)) := State.updateCrc_of_holds _ h

theorem exec_byte_of_unwritten {s : State} (c : Byte) (h : s.crc = .unwritten) :
    exec (.byte c) s = .fault .unwrittenAccumulator := State.updateCrc_of_unwritten _ h

theorem crcPort_of_holds {s : State} {v : Byte} (h : s.crc = .holds v) : s.crcPort = .ok v :=
  State.readCrc_of_holds h

theorem crcPort_of_unwritten {s : State} (h : s.crc = .unwritten) :
    s.crcPort = .error .unwrittenAccumulator := State.readCrc_of_unwritten h

/-- A step whose inputs decode as a reset (R105). -/
theorem step_of_reset {s : State} {p : Pins} {rest : List Pins} (hs : s.inputs = p :: rest)
    (he : decodePins p = .reset) : step s = .next (State.takeReset { s with inputs := rest }) := by
  rw [step_cons hs, clockEdge, he]

/-- A step whose inputs decode as a command (R110, the branches with `rst` = 0). -/
theorem step_of_command {s : State} {p : Pins} {rest : List Pins} {i : Instr} (hs : s.inputs = p :: rest)
    (he : decodePins p = .command i) : step s = exec i { s with inputs := rest } := by
  rw [step_cons hs, clockEdge, he]

/-- A command reads nothing of the state but CRC (R19). -/
theorem exec_next_of_crc_eq {i : Instr} {s s' t : State} (hc : s.crc = s'.crc) (h : exec i s = .next t) :
    ∃ t', exec i s' = .next t' ∧ t'.crc = t.crc := by
  rcases exec_next_cases h with ⟨rfl, rfl⟩ | ⟨k, rfl, rfl⟩ | ⟨c, v, rfl, hv, rfl⟩
  · exact ⟨s', exec_hold s', hc.symm⟩
  · exact ⟨s'.writeCrc k, exec_seed k s', rfl⟩
  · exact ⟨s'.writeCrc (byteStep v c), exec_byte_of_holds c (hc.symm.trans hv), rfl⟩

/-- Inputs that decode alike lead states with equal CRCs to states with equal CRCs. -/
theorem step_next_of_crc_eq {s s' t : State} {p p' : Pins} {rest rest' : List Pins}
    (hs : s.inputs = p :: rest) (hs' : s'.inputs = p' :: rest') (hd : decodePins p = decodePins p')
    (hc : s.crc = s'.crc) (h : step s = .next t) : ∃ t', step s' = .next t' ∧ t'.crc = t.crc := by
  cases he : decodePins p with
  | reset =>
    rw [step_of_reset hs he] at h
    cases h
    exact ⟨_, step_of_reset hs' (hd.symm.trans he), rfl⟩
  | command i =>
    rw [step_of_command hs he] at h
    rw [step_of_command hs' (hd.symm.trans he)]
    exact exec_next_of_crc_eq (s := { s with inputs := rest }) hc h

/-- Settles O22: the first clause is the congruence of the step in CRC; a reset and a SEED write a constant. -/
theorem nextCrcDependsOnlyOnCrcAndCommand : Obligations.NextCrcDependsOnlyOnCrcAndCommand := by
  intro s s' p p' rest rest' hs hs' hd
  refine ⟨fun hc t h => step_next_of_crc_eq hs hs' hd hc h, ?_⟩
  rintro (he | ⟨k, he⟩)
  · exact ⟨_, _, step_of_reset hs he, step_of_reset hs' (hd.symm.trans he), rfl⟩
  · exact ⟨_, _, step_of_command hs he, step_of_command hs' (hd.symm.trans he), rfl⟩

/-- Settles O1, from the equation of a reset step and the reads of a written and an unwritten CRC. -/
theorem resetValueAndPowerUpCondition : Obligations.ResetValueAndPowerUpCondition := by
  refine ⟨State.reset_crc, fun s p rest hs hr => ?_, State.powerUp_crc, fun s h => ?_⟩
  · exact ⟨_, step_of_reset hs (decodePins_reset hr), State.takeReset_crc _,
      crcPort_of_holds (State.takeReset_crc _)⟩
  · exact ⟨fun c => exec_byte_of_unwritten c h, crcPort_of_unwritten h⟩

end Sys2Proof.Machine
end

section
/-! Proofs of the family "memory" (spec/20_memory.md R23, R29): the step of a decoded line has that line's effect; by
induction over the lines a run folds the effects and the port shows the fold so far; then the bit order. -/

namespace Sys2Proof.Machine

@[simp] theorem linesEffect_nil (v : Byte) : linesEffect v [] = v := rfl

@[simp] theorem linesEffect_cons (v : Byte) (l : Line) (ls : List Line) :
    linesEffect v (l :: ls) = linesEffect (l.effect v) ls := rfl

/-- From a written CRC a step whose inputs decode as the line `l` completes with the effect of `l` (R60 to R62,
R105). -/
theorem step_of_line {p : Pins} {l : Line} (v : Byte) (rest : List Pins) (he : decodePins p = l.event) :
    step { crc := .holds v, inputs := p :: rest } = .next { crc := .holds (l.effect v), inputs := rest } := by
  cases l with
  | reset => exact step_of_reset rfl he
  | hold => exact (step_of_command rfl he).trans (exec_hold _)
  | seed k => exact (step_of_command rfl he).trans (exec_seed k _)
  | byte c => exact (step_of_command rfl he).trans (exec_byte_of_holds c rfl)

/-- A run over decoded lines leaves the fold of their effects (R29). -/
theorem run_of_lines (v : Byte) (ps rest : List Pins) (ls : List Line)
    (he : ps.map decodePins = ls.map Line.event) :
    run ps.length { crc := .holds v, inputs := ps ++ rest } =
      .next { crc := .holds (linesEffect v ls), inputs := rest } := by
  induction ls generalizing v ps with
  | nil =>
    obtain rfl : ps = [] := List.map_eq_nil_iff.1 he
    rfl
  | cons l ls ih =>
    obtain ⟨p, ps, rfl, hp, hps⟩ := List.map_eq_cons_iff.1 he
    exact (run_succ_of_next (step_of_line v (ps ++ rest) hp)).trans (ih (l.effect v) ps hps)

/-- The port after each step of a run over decoded lines: the fold over the lines so far (R29). -/
theorem observations_of_lines (v : Byte) (ps rest : List Pins) (ls : List Line)
    (he : ps.map decodePins = ls.map Line.event) :
    observations ps.length { crc := .holds v, inputs := ps ++ rest } =
      (List.range ls.length).map fun t => .ok (linesEffect v (ls.take (t + 1))) := by
  induction ls generalizing v ps with
  | nil =>
    obtain rfl : ps = [] := List.map_eq_nil_iff.1 he
    rfl
  | cons l ls ih =>
    obtain ⟨p, ps, rfl, hp, hps⟩ := List.map_eq_cons_iff.1 he
    have hobs := observations_succ_of_next (n := ps.length) (step_of_line v (ps ++ rest) hp)
    rw [crcPort_of_holds rfl, ih (l.effect v) ps hps] at hobs
    simpa [List.range_succ_eq_map, Function.comp_def] using hobs

/-- Settles O27, by induction over the lines, for the run and for its observation. -/
theorem portAfterEachStepIsTheFold : Obligations.PortAfterEachStepIsTheFold :=
  fun v ps rest ls he => ⟨run_of_lines v ps rest ls he, observations_of_lines v ps rest ls he⟩

/-- "from the most significant (value 0x80) down to the least significant (value 0x01), halving each step" (R23). -/
theorem bitMasks_eq_shifts : bitMasks = (List.range 8).map fun n => 0x80#8 >>> n := by decide

/-- The port shows v exactly where CRC holds v (R36). -/
theorem crcPort_ok_iff (s : State) (v : Byte) : s.crcPort = .ok v ↔ s.crc = .holds v := State.readCrc_ok_iff s v

/-- Settles O10: the order is that of `REFIN` = false, the masks are the shifts of 0x80, and the port shows the
accumulator itself. -/
theorem bitOrderMostSignificantFirst : Obligations.BitOrderMostSignificantFirst := by
  refine ⟨fun c => inputBits_follow_refIn c, fun c => ?_, fun s v w hv hw i => ?_⟩
  · rw [inputBits, bitMasks_eq_shifts, List.map_map]
    rfl
  · obtain rfl : v = w := Accumulator.holds.inj (hv.symm.trans ((crcPort_ok_iff s w).1 hw))
    rfl

end Sys2Proof.Machine
end

section
/-! The fields of a word and of the pins (spec/30_encoding.md R38, R39, R45): the mask 0x300 leaves the opcode alone,
so a row of the opcode map is selected by its opcode; a command is read back from its word, and the decoder reads
from the pins of a listing line that line's event. -/

namespace Sys2Proof

/-- The mask of the opcode map keeps the field `op` and clears the operand (R38, R39). -/
theorem and_opcodeMask (w : CommandWord) : w &&& 0x300#10 = joinWord (opcode w) 0x00#8 :=
  calc w &&& 0x300#10
      = joinWord (opcode w) (operand w) &&& joinWord (BitVec.allOnes 2) 0x00#8 := by
        rw [joinWord_fields]; rfl
    _ = joinWord (opcode w &&& BitVec.allOnes 2) (operand w &&& 0x00#8) := BitVec.and_append
    _ = joinWord (opcode w) 0x00#8 := by rw [BitVec.and_allOnes, BitVec.and_zero]

/-- `(W & mask) == match` compares the opcodes alone (R39). -/
theorem and_opcodeMask_eq_iff (w : CommandWord) (op : Opcode) :
    w &&& 0x300#10 = joinWord op 0x00#8 ↔ opcode w = op := by
  rw [and_opcodeMask]
  refine ⟨fun h => ?_, fun h => by rw [h]⟩
  simpa using congrArg opcode h

theorem decode_of_opcode {w : CommandWord} {op : Opcode} (h : opcode w = op) :
    decode w = decodeFields op (operand w) := by
  rw [decode, h]

@[simp] theorem decode_encode (i : Instr) : decode (encode i) = i := by
  cases i <;> simp [decode, encode, encodeFields]

@[simp] theorem Line.decodePins_pins (l : Line) : decodePins l.pins = l.event := by
  cases l with
  | reset => rfl
  | hold | seed | byte => simp [Line.pins, Line.event]

theorem map_decodePins_assemble (ls : List Line) : (assemble ls).map decodePins = ls.map Line.event := by
  simp [assemble]

@[simp] theorem length_assemble (ls : List Line) : (assemble ls).length = ls.length := List.length_map _

end Sys2Proof
end

section
/-! Proofs of the family "encoding" (spec/30_encoding.md R36 to R46): the pseudo-instructions, by the effect of their
expansions, which HOLD lines do not change; then the port, the opcode map, the decoder and the reserved opcode. -/

namespace Sys2Proof.Machine

/-- HOLD lines have no part in the effect of a list of lines (R46, R60). -/
theorem linesEffect_filter_hold (v : Byte) (ls : List Line) :
    linesEffect v (ls.filter (· != .hold)) = linesEffect v ls := by
  induction ls generalizing v with
  | nil => rfl
  | cons l ls ih =>
    cases l with
    | hold => exact ih v
    | seed k => exact ih k
    | byte c => exact ih (byteStep v c)
    | reset => exact ih Config.resetValue

theorem linesEffect_eq_of_filter_hold_eq (v : Byte) {ls ls' : List Line}
    (h : ls.filter (· != .hold) = ls'.filter (· != .hold)) : linesEffect v ls = linesEffect v ls' := by
  rw [← linesEffect_filter_hold v ls, h, linesEffect_filter_hold]

/-- The lines of a buffer fold it as UPDATE does (R70, R72). -/
@[simp] theorem linesEffect_map_byte (v : Byte) (b : List Byte) : linesEffect v (b.map .byte) = update v b := by
  induction b generalizing v with
  | nil => rfl
  | cons c b ih => exact ih (byteStep v c)

/-- A listing, executed from a written CRC, completes with the effect of its lines, one step per line (R45). -/
theorem run_assemble (v : Byte) (ls : List Line) (rest : List Pins) :
    run ls.length { crc := .holds v, inputs := assemble ls ++ rest } =
      .next { crc := .holds (linesEffect v ls), inputs := rest } := by
  simpa using run_of_lines v (assemble ls) rest ls (map_decodePins_assemble ls)

/-- Settles O50: a listing completes with the effect of its lines, which is that of the expansion, since the two
differ in HOLD lines alone; and the effect of an expansion is the fold of its buffer. -/
theorem pseudoInstructionsMeanWhatTheyExpandTo : Obligations.PseudoInstructionsMeanWhatTheyExpandTo := by
  refine ⟨fun _ _ => rfl, fun _ => rfl, fun _ => rfl, rfl,
    fun k b => ⟨by simp [Pseudo.expand], by simp [Pseudo.expand]⟩, fun v q ls rest h => ?_⟩
  rw [run_assemble, linesEffect_eq_of_filter_hold_eq v h]
  congr 3
  cases q with
  | update k b => exact linesEffect_map_byte k b
  | cont b => exact linesEffect_map_byte v b
  | fresh b => exact linesEffect_map_byte Config.init b
  | nop => rfl

/-- Settles O4: the port reads CRC, and a byte is below 256. -/
theorem portIsPlainViewOfRegister : Obligations.PortIsPlainViewOfRegister := by
  refine ⟨crcPort_ok_iff, fun s t v _ hv => ⟨crcPort_of_holds hv, Nat.le_of_lt_succ v.isLt, fun w hw i => ?_⟩⟩
  obtain rfl : v = w := Accumulator.holds.inj (hv.symm.trans ((crcPort_ok_iff t w).1 hw))
  rfl

/-- Settles O6: the rows' tests and the command's mnemonic depend on the opcode alone, and the four rows carry the
four opcodes. -/
theorem opcodeMapPartitionsAllWords : Obligations.OpcodeMapPartitionsAllWords := by
  refine ⟨rfl, fun w => ?_⟩
  rw [decode_of_opcode rfl]
  simp only [opcodeRows, List.filter, and_opcodeMask]
  rcases opcode_cases (opcode w) with h | h | h | h <;> rw [h] <;> rfl

/-- Settles O7: the reset first, then one branch for each of the four opcodes. -/
theorem decodeOfStepInputs : Obligations.DecodeOfStepInputs := by
  intro p
  cases hr : p.rst with
  | true => simp [hr]
  | false => rcases opcode_cases p.cmd with h | h | h | h <;> simp [hr, h]

/-- Settles O14: the mask and match of the reserved row say that the opcode is 11, which decodes to the reserved
command, and its meaning is the refusal. -/
theorem reservedOpcodeIsRefused : Obligations.ReservedOpcodeIsRefused := by
  refine ⟨fun w hw => ?_, fun _ => rfl, fun s p rest hs hr hc => ?_⟩
  · exact decode_of_opcode ((and_opcodeMask_eq_iff w 0b11#2).1 hw)
  · have he : decodePins p = .command .reserved := by simp [hr, hc]
    rw [step_of_command hs he]
    rfl

end Sys2Proof.Machine
end

section
/-! Proofs of the family "bitstep" (spec/40_bitstep.md R50, R52): the shift bit by bit, the feedback bit as the source's
test of the mask 0x80, and the two statements assembled from them. -/

namespace Sys2Proof.Machine

/-- Bits 7 to 1 of a shift are bits 6 to 0 of the operand (R52). -/
theorem shiftLeftOne_getLsbD_succ (r : Byte) {i : Nat} (hi : i < 7) :
    (shiftLeftOne r).getLsbD (i + 1) = r.getLsbD i := by
  have hi8 : i + 1 < 8 := Nat.succ_lt_succ hi
  rw [shiftLeftOne_getLsbD]
  simp [hi8]

theorem shiftLeftOne_getLsbD_zero (r : Byte) : (shiftLeftOne r).getLsbD 0 = false :=
  shiftLeftOne_getLsbD r 0

/-- The top bit of the operand has no part in a shift (R52). -/
theorem shiftLeftOne_eq_of_low_bits_eq {r s : Byte} (h : ∀ i, i < 7 → r.getLsbD i = s.getLsbD i) :
    shiftLeftOne r = shiftLeftOne s := by
  apply BitVec.eq_of_getLsbD_eq
  intro i hi
  cases i with
  | zero => rw [shiftLeftOne_getLsbD_zero, shiftLeftOne_getLsbD_zero]
  | succ i =>
    have hi7 : i < 7 := Nat.lt_of_succ_lt_succ hi
    rw [shiftLeftOne_getLsbD_succ r hi7, shiftLeftOne_getLsbD_succ s hi7, h i hi7]

/-- Steps a and b of the source: the top bit by the mask 0x80, inverted by the data bit (R50). -/
theorem feedbackBit_eq_dataBit_xor (r : Byte) (d : Bool) : feedbackBit r d = (dataBit r 0x80#8 ^^ d) := by
  rw [feedbackBit, (dataBit_of_mask r).1]

/-- Settles O34: the shift read at a successor and at 0; these bits determine it. -/
theorem shiftDiscardsTopBit : Obligations.ShiftDiscardsTopBit :=
  ⟨fun r _ hi => shiftLeftOne_getLsbD_succ r hi, shiftLeftOne_getLsbD_zero,
    fun _ _ h => shiftLeftOne_eq_of_low_bits_eq h⟩

/-- Settles O33: the pseudocode is the definition of the bit step, with `POLY` = 0x07; the mask form of the feedback
bit tests bit 7. -/
theorem bitStepIsTheFourSteps : Obligations.BitStepIsTheFourSteps :=
  ⟨fun _ _ => rfl, feedbackBit_eq_dataBit_xor, rfl⟩

end Sys2Proof.Machine
end

section
/-! Proofs of the family "commands" (spec/41_commands.md R60 to R62): HOLD steps by induction over the list of triples,
SEED by its equation, BYTE as eight bit steps over the bits of its operand, and the byte step of a byte over itself. -/

namespace Sys2Proof.Machine

/-- HOLD steps take their triples from the list and change nothing else (R60). -/
theorem run_of_holds {s : State} {ps rest : List Pins} (hs : s.inputs = ps ++ rest)
    (hp : ∀ p ∈ ps, decodePins p = .command .hold) : run ps.length s = .next { s with inputs := rest } := by
  induction ps generalizing s with
  | nil =>
    subst hs
    rfl
  | cons p ps ih =>
    obtain ⟨hhead, htail⟩ := List.forall_mem_cons.1 hp
    have hstep : step s = .next { s with inputs := ps ++ rest } := (step_of_command hs hhead).trans (exec_hold _)
    exact (run_succ_of_next hstep).trans (ih rfl htail)

/-- Settles O11: opcode 00 decodes to HOLD, in a word and on the pins, and HOLD answers the state it is given. -/
theorem holdLeavesEverything : Obligations.HoldLeavesEverything := by
  refine ⟨fun w hw => ?_, exec_hold, fun s ps rest hs hp => run_of_holds hs fun p hmem => ?_⟩
  · exact decode_of_opcode ((and_opcodeMask_eq_iff w 0b00#2).1 hw)
  · obtain ⟨hr, hc⟩ := hp p hmem
    simp [hr, hc]

/-- Settles O12: the equation of SEED; a write of what CRC holds changes nothing, and the reset writes 0x00. -/
theorem seedLoadsOperand : Obligations.SeedLoadsOperand := by
  refine ⟨fun w hw => ?_, exec_seed, fun k s h => ?_, fun s => exec_seed Config.resetValue s⟩
  · exact decode_of_opcode ((and_opcodeMask_eq_iff w 0b01#2).1 hw)
  · rw [exec_seed, State.writeCrc_same s k h]

/-- The bits of the operand in the order of R23: c[7] first, c[0] last. -/
theorem inputBits_eq_map_range (c : Byte) : inputBits c = (List.range 8).map fun i => c.getLsbD (7 - i) :=
  inputBits_follow_refIn c

theorem bitSteps_concat (r : Byte) (ds : List Bool) (d : Bool) :
    bitSteps r (ds ++ [d]) = bitStep (bitSteps r ds) d := List.foldl_concat ..

/-- A data bit equal to the top bit cancels it: the polynomial is not applied (R50). -/
theorem bitStep_of_top_bit {r : Byte} {d : Bool} (h : r.getLsbD 7 = d) : bitStep r d = shiftLeftOne r := by
  have hfb : feedbackBit r d = false := by rw [feedbackBit, h, Bool.xor_self]
  simp [bitStep, hfb]

/-- Bit steps of a byte over its own leading bits only shift it: each data bit meets itself at the top. -/
theorem bitSteps_leading_bits (r : Byte) (n : Nat) (hn : n ≤ 8) :
    bitSteps r ((List.range n).map fun i => r.getLsbD (7 - i)) = r <<< n := by
  induction n with
  | zero => simp
  | succ n ih =>
    have hn7 : n ≤ 7 := Nat.le_of_succ_le_succ hn
    have htop : (r <<< n).getLsbD 7 = r.getLsbD (7 - n) := by
      rw [BitVec.getLsbD_shiftLeft]
      simp only [hn7.not_gt, decide_true, decide_false, Bool.not_false, Bool.true_and, Nat.reduceLT]
    rw [List.range_succ, List.map_append, List.map_singleton, bitSteps_concat, ih (Nat.le_of_succ_le hn),
      bitStep_of_top_bit htop, shiftLeftOne, ← BitVec.shiftLeft_add]

/-- A byte folded into itself leaves nothing (R62). -/
theorem byteStep_self (r : Byte) : byteStep r r = 0x00#8 :=
  calc byteStep r r
      = bitSteps r ((List.range 8).map fun i => r.getLsbD (7 - i)) := by rw [byteStep, inputBits_eq_map_range]
    _ = r <<< 8 := bitSteps_leading_bits r 8 le_rfl
    _ = 0x00#8 := BitVec.shiftLeft_eq_zero le_rfl

/-- The byte step as eight nested bit steps, most significant bit of the operand first (R62). -/
theorem byteStep_eq_nested_bitSteps (r c : Byte) :
    byteStep r c =
      bitStep (bitStep (bitStep (bitStep (bitStep (bitStep (bitStep (bitStep r
        (c.getLsbD 7)) (c.getLsbD 6)) (c.getLsbD 5)) (c.getLsbD 4)) (c.getLsbD 3)) (c.getLsbD 2))
        (c.getLsbD 1)) (c.getLsbD 0) := by
  rw [byteStep, inputBits_eq_map_range]
  rfl

/-- Settles O13: BYTE writes the byte step, which is eight nested bit steps; a byte over itself only shifts out; the
printed values are evaluated. -/
theorem byteFoldsEightBitSteps : Obligations.ByteFoldsEightBitSteps := by
  refine ⟨fun w hw => ?_, fun c r s h => ?_, fun c r s h => exec_byte_of_holds c h, by decide, by decide, by decide,
    by decide, by decide, by decide, byteStep_self, by decide⟩
  · exact decode_of_opcode ((and_opcodeMask_eq_iff w 0b10#2).1 hw)
  · rw [← byteStep_eq_nested_bitSteps]
    exact exec_byte_of_holds c h

end Sys2Proof.Machine
end

section
/-! Proofs of the family "update" (spec/42_update.md R70 to R78): `update` as a left fold of the byte step, from which
the index loop and chunking invariance follow; and the state a whole UPDATE transaction leaves. -/

namespace Sys2Proof.Machine

/-- "a left fold of ByteStep over the list, starting from k" (R70). -/
theorem update_eq_foldl (k : Byte) (b : List Byte) : update k b = b.foldl byteStep k := by
  induction b generalizing k with
  | nil => rfl
  | cons c b ih => exact ih (byteStep k c)

/-- The fold over a concatenation is the fold over the second list started from the fold over the first (R74). -/
theorem update_append (k : Byte) (b₁ b₂ : List Byte) : update k (b₁ ++ b₂) = update (update k b₁) b₂ := by
  simp only [update_eq_foldl, List.foldl_append]

/-- Threading the result through fragments is updating once over their concatenation (R74). -/
theorem updateChunks_eq_update_flatten (k : Byte) (bs : List (List Byte)) :
    updateChunks k bs = update k bs.flatten := by
  induction bs generalizing k with
  | nil => rfl
  | cons b bs ih =>
    rw [List.flatten_cons, update_append]
    exact ih (update k b)

/-- The bytes read by ascending index are the buffer (R7, R70). -/
theorem map_memRead_finRange (b : List Byte) : (List.finRange b.length).map (memRead b) = b :=
  List.map_get_finRange b

theorem updateLoop_eq_update (k : Byte) (b : List Byte) : updateLoop k b = update k b :=
  calc updateLoop k b
      = ((List.finRange b.length).map (memRead b)).foldl byteStep k := List.foldl_map.symm
    _ = update k b := by rw [map_memRead_finRange, update_eq_foldl]

/-- The standard check value: the ASCII bytes of "123456789" (R78). -/
theorem update_checkString :
    update 0x00#8 [0x31#8, 0x32#8, 0x33#8, 0x34#8, 0x35#8, 0x36#8, 0x37#8, 0x38#8, 0x39#8] = 0xF4#8 := by
  decide +kernel

/-- The state an UPDATE transaction leaves, from every state, power-up included: its SEED overwrites CRC and its
BYTEs fold the buffer; all else that remains is what the host presents after it (R71, R77). -/
theorem run_updateTransaction {s : State} {k : Byte} {b : List Byte} {rest : List Pins}
    (hs : s.inputs = assemble (Pseudo.expand (.update k b)) ++ rest) :
    run (b.length + 1) s = .next { crc := .holds (update k b), inputs := rest } := by
  have hseed : step s = .next { crc := .holds k, inputs := assemble (b.map .byte) ++ rest } :=
    (step_of_command hs (Line.decodePins_pins (.seed k))).trans (exec_seed k _)
  rw [run_succ_of_next hseed]
  simpa using run_assemble k (b.map .byte) rest

/-- Settles O32: the state after a transaction is named by its result and the further inputs alone. -/
theorem onlyTraceOfBufferIsCrc : Obligations.OnlyTraceOfBufferIsCrc := by
  intro s s' t t' k k' b b' rest hs hs' ht ht'
  rw [run_updateTransaction hs] at ht
  rw [run_updateTransaction hs'] at ht'
  cases ht
  cases ht'
  exact ⟨rfl, fun h => by rw [h]⟩

/-- Settles O45: two fragments by the fold over a concatenation, any list of them by induction over the list. -/
theorem chunkingInvariance : Obligations.ChunkingInvariance :=
  ⟨fun k b₁ b₂ => (update_append k b₁ b₂).symm, updateChunks_eq_update_flatten⟩

/-- Settles O43: the two equations of the definition; the loop folds the bytes it reads, which are the buffer. -/
theorem updateIsTheLeftFold : Obligations.UpdateIsTheLeftFold :=
  ⟨update_nil, update_cons, fun k b => (updateLoop_eq_update k b).symm, update_checkString⟩

/-- Settles O44: the transaction of an empty buffer is its SEED alone; the continuation is no step. -/
theorem emptyBufferIsIdentity : Obligations.EmptyBufferIsIdentity :=
  ⟨update_nil, fun _ _ _ hs => ⟨_, run_updateTransaction hs, crcPort_of_holds rfl⟩, fun s => ⟨rfl, run_zero s⟩⟩

/-- Settles O46: the empty buffer by the first equation of `update`, the others evaluated. -/
theorem knownVectors : Obligations.KnownVectors :=
  ⟨update_nil 0x00#8, by decide, update_checkString, by decide⟩

end Sys2Proof.Machine
end

section
/-! Proofs of the family "reset and hazards" (spec/70_reset_and_hazards.md R105 to R110): a written CRC stays written
and no step from it faults, so by induction no run from it does; a run and its observation as folds of the step; and
the three statements assembled from them. -/

namespace Sys2Proof.Machine

/-- No command makes a written CRC unwritten. -/
theorem exec_keeps_crcWritten {i : Instr} {s t : State} (hw : CrcWritten s) (h : exec i s = .next t) :
    CrcWritten t := by
  rcases exec_next_cases h with ⟨-, rfl⟩ | ⟨k, -, rfl⟩ | ⟨c, v, -, -, rfl⟩
  · exact hw
  · rfl
  · rfl

theorem step_keeps_crcWritten {s t : State} (hw : CrcWritten s) (h : step s = .next t) : CrcWritten t := by
  obtain ⟨p, rest, -, ⟨-, rfl⟩ | ⟨-, hexec⟩⟩ := step_next_cases h
  · rfl
  · exact exec_keeps_crcWritten (s := { s with inputs := rest }) hw hexec

theorem exec_ne_fault_of_crcWritten {s : State} (hw : CrcWritten s) (i : Instr) (e : Fault) :
    exec i s ≠ .fault e := by
  intro h
  obtain ⟨-, hc, -⟩ := exec_fault_cases h
  simp [CrcWritten, hc, Accumulator.written] at hw

theorem step_ne_fault_of_crcWritten {s : State} (hw : CrcWritten s) (e : Fault) : step s ≠ .fault e := by
  cases hs : s.inputs with
  | nil => simp [step_nil hs]
  | cons p rest =>
    cases he : decodePins p with
    | reset => simp [step_of_reset hs he]
    | command i =>
      rw [step_of_command hs he]
      exact exec_ne_fault_of_crcWritten (s := { s with inputs := rest }) hw i e

theorem run_succ_of_fault {s : State} {e : Fault} (n : Nat) (h : step s = .fault e) :
    run (n + 1) s = .fault e := by
  simp [run, h]

theorem run_succ_of_refused {s : State} {e : Refusal} (n : Nat) (h : step s = .refused e) :
    run (n + 1) s = .refused e := by
  simp [run, h]

theorem observations_succ_of_fault {s : State} {e : Fault} (n : Nat) (h : step s = .fault e) :
    observations (n + 1) s = [] := by
  simp [observations, h]

theorem observations_succ_of_refused {s : State} {e : Refusal} (n : Nat) (h : step s = .refused e) :
    observations (n + 1) s = [] := by
  simp [observations, h]

/-- A run that completes is its first step, which completes, and the run of the others. -/
theorem run_succ_next_cases {n : Nat} {s t : State} (h : run (n + 1) s = .next t) :
    ∃ u, step s = .next u ∧ run n u = .next t := by
  cases hstep : step s with
  | next u => exact ⟨u, rfl, (run_succ_of_next hstep).symm.trans h⟩
  | fault e => simp [run_succ_of_fault n hstep] at h
  | refused e => simp [run_succ_of_refused n hstep] at h

/-- A run goes on from where its first steps lead: the left fold over a concatenation (R110). -/
theorem run_add_of_next {m : Nat} (n : Nat) {s t : State} (h : run m s = .next t) : run (m + n) s = run n t := by
  induction m generalizing s with
  | zero =>
    cases h
    rw [Nat.zero_add]
  | succ m ih =>
    obtain ⟨u, hstep, hrun⟩ := run_succ_next_cases h
    rw [Nat.add_right_comm m 1 n, run_succ_of_next hstep, ih hrun]

theorem observations_add_of_next {m : Nat} (n : Nat) {s t : State} (h : run m s = .next t) :
    observations (m + n) s = observations m s ++ observations n t := by
  induction m generalizing s with
  | zero =>
    cases h
    rw [Nat.zero_add]
    rfl
  | succ m ih =>
    obtain ⟨u, hstep, hrun⟩ := run_succ_next_cases h
    rw [Nat.add_right_comm m 1 n, observations_succ_of_next hstep,
      observations_succ_of_next hstep, ih hrun, List.cons_append]

/-- The invariant packaged: a run of any length from a written CRC never meets the model's fault (R107). -/
theorem run_ne_fault_of_crcWritten (n : Nat) {s : State} (hw : CrcWritten s) (e : Fault) : run n s ≠ .fault e := by
  induction n generalizing s with
  | zero => simp
  | succ n ih =>
    cases hstep : step s with
    | next t =>
      rw [run_succ_of_next hstep]
      exact ih (step_keeps_crcWritten hw hstep)
    | fault e' => exact absurd hstep (step_ne_fault_of_crcWritten hw e')
    | refused e' => simp [run_succ_of_refused n hstep]

/-- A first reset step writes CRC, so the run it starts does not fault, whatever CRC was before (R107). -/
theorem run_ne_fault_of_reset {s : State} {p : Pins} {rest : List Pins} (hs : s.inputs = p :: rest)
    (he : decodePins p = .reset) (n : Nat) (e : Fault) : run n s ≠ .fault e := by
  cases n with
  | zero => simp
  | succ n =>
    rw [run_succ_of_next (step_of_reset hs he)]
    exact run_ne_fault_of_crcWritten n rfl e

/-- The transition function as R110 prints it: the reset first, then one branch for each of the four opcodes. -/
theorem step_of_holds (v : Byte) (p : Pins) (rest : List Pins) :
    step { crc := .holds v, inputs := p :: rest } =
      if p.rst = true then .next { crc := .holds 0x00#8, inputs := rest }
      else if p.cmd = 0b00#2 then .next { crc := .holds v, inputs := rest }
      else if p.cmd = 0b01#2 then .next { crc := .holds p.din, inputs := rest }
      else if p.cmd = 0b10#2 then .next { crc := .holds (byteStep v p.din), inputs := rest }
      else .refused .reservedOpcode := by
  cases hr : p.rst with
  | true => exact step_of_line (l := .reset) v rest (decodePins_reset hr)
  | false =>
    have he := decodePins_command hr
    rcases opcode_cases p.cmd with hc | hc | hc | hc <;> rw [hc] at he ⊢
    · exact step_of_line (l := .hold) v rest he
    · exact step_of_line (l := .seed p.din) v rest he
    · exact step_of_line (l := .byte p.din) v rest he
    · exact step_of_command rfl he

/-- Settles O3: the equations of the commands and of a reset step on an unwritten CRC; a run that starts with a reset
step goes on from a written CRC, which no step makes unwritten and from which none faults. -/
theorem unwrittenAccumulatorBeforeFirstReset : Obligations.UnwrittenAccumulatorBeforeFirstReset := by
  refine ⟨State.powerUp_crc, fun s h => ⟨fun c => exec_byte_of_unwritten c h, crcPort_of_unwritten h, exec_hold s,
    fun k => exec_seed k s, fun p rest hs hr => ?_⟩, fun s p rest hs hr => ?_⟩
  · exact ⟨_, step_of_reset hs (decodePins_reset hr), State.takeReset_crc _⟩
  · exact run_ne_fault_of_reset hs (decodePins_reset hr)

/-- Settles O18: the printed function by its branches, the fold of the run by the equations of one step more, and the
concatenation of runs by induction over the first. -/
theorem stepIsTheTransitionFunction : Obligations.StepIsTheTransitionFunction := by
  refine ⟨step_of_holds, fun v s h => crcPort_of_holds h, fun s => ⟨run_zero s, rfl⟩,
    fun n s t h => ⟨run_succ_of_next h, observations_succ_of_next h⟩,
    fun n s e h => ⟨run_succ_of_fault n h, observations_succ_of_fault n h⟩,
    fun n s e h => ⟨run_succ_of_refused n h, observations_succ_of_refused n h⟩,
    fun m n s t h => ⟨run_add_of_next n h, observations_add_of_next n h⟩, fun s hs t => ?_⟩
  simp [step_nil hs]

/-- Settles O2: the reset and `SEED 0x00` write the same constant; with `rst` = 0 the pins decode as their word. -/
theorem resetStepOverridesCommandWord : Obligations.ResetStepOverridesCommandWord := by
  refine fun s p rest hs => ⟨fun hr => ?_, fun hr => ?_⟩
  · have hstep := step_of_reset hs (decodePins_reset hr)
    exact ⟨hstep, hstep⟩
  · rw [decode_word]
    exact step_of_command hs (decodePins_command hr)

end Sys2Proof.Machine
end

section
/-! Proofs of the family "other", words and single steps: the round trip of decoder and encoder (spec/30_encoding.md
R38 to R42), what a command leaves unchanged and that it completes (spec/60_exceptions.md section 1), and when a step
stops. -/

namespace Sys2Proof.Machine

/-- A table number that fits the 10 bits of a word is answered with the command of that word (R38, log 6). -/
theorem decodeTableWord_of_lt {w : Nat} (nbits : Nat) (h : w < 1024) :
    decodeTableWord nbits w = some (decode (BitVec.ofNat 10 w)) := by
  simp [decodeTableWord, decodeNat, h]

theorem decodeTableWord_of_ge {w : Nat} (nbits : Nat) (h : 1024 ≤ w) : decodeTableWord nbits w = none := by
  simp [decodeTableWord, decodeNat, h.not_gt]

/-- Whatever a table number is answered with is the command of the word with that number. -/
theorem eq_decode_of_decodeTableWord {nbits w : Nat} {i : Instr} (h : decodeTableWord nbits w = some i) :
    decode (BitVec.ofNat 10 w) = i := by
  rcases Nat.lt_or_ge w 1024 with hw | hw
  · exact Option.some.inj ((decodeTableWord_of_lt nbits hw).symm.trans h)
  · simp [decodeTableWord_of_ge nbits hw] at h

@[simp] theorem decodeTableWord_encode (i : Instr) (nbits : Nat) :
    decodeTableWord nbits (encode i).toNat = some i := by
  simp [decodeTableWord_of_lt nbits (encode i).isLt]

/-- A word written back from its command: SEED and BYTE keep the operand, the others lose it (R40, log 7). -/
theorem encode_decode (w : CommandWord) :
    encode (decode w) = if opcode w = 0b01#2 ∨ opcode w = 0b10#2 then w else w &&& 0x300#10 := by
  have hw : joinWord (opcode w) (operand w) = w := joinWord_fields w
  rw [decode_of_opcode rfl, and_opcodeMask]
  rcases opcode_cases (opcode w) with h | h | h | h <;> rw [h] at hw ⊢
  · rfl
  · exact hw
  · exact hw
  · rfl

/-- Settles O9: a command is read back from its word, as a word and as a table number; a word is written back opcode
by opcode; a number that does not fit 10 bits is rejected. -/
theorem decodeEncodeRoundTrip : Obligations.DecodeEncodeRoundTrip :=
  ⟨decode_encode, decodeTableWord_encode, encode_decode, fun _ nbits h => decodeTableWord_of_ge nbits h⟩

/-- Settles O8: the fixed words, evaluated. -/
theorem printedEncodingsDecode : Obligations.PrintedEncodingsDecode := by
  unfold Obligations.PrintedEncodingsDecode
  decide

/-- Presenting a table word makes the next step the command of that word (R110, log 6). -/
theorem step_withFetchWord (s : State) (nbits w : Nat) :
    step (s.withFetchWord nbits w) = exec (decode (BitVec.ofNat 10 w)) { s with inputs := s.inputs.tail } :=
  step_of_command (State.withFetchWord_inputs s nbits w) (decodePins_ofWord _)

/-- Settles O17: the pins decode as their word, and a presented table word is on the pins of the next step. -/
theorem stepRunsPresentedCommand : Obligations.StepRunsPresentedCommand := by
  refine ⟨fun s p rest hs hr => ?_, fun s nbits w i h => ?_, fun s nbits i => ?_⟩
  · rw [decode_word]
    exact step_of_command hs (decodePins_command hr)
  · rw [step_withFetchWord, eq_decode_of_decodeTableWord h]
  · rw [step_withFetchWord, eq_decode_of_decodeTableWord (decodeTableWord_encode i nbits)]

theorem crcWritten_iff (s : State) : CrcWritten s ↔ ∃ v, s.crc = .holds v := by
  cases h : s.crc <;> simp [CrcWritten, h, Accumulator.written]

/-- Settles O15: each of the three commands by its equation; the reserved one is not well-formed. -/
theorem definedCommandsAreTotal : Obligations.DefinedCommandsAreTotal := by
  intro i s hi hw
  obtain ⟨v, hv⟩ := (crcWritten_iff s).1 hw
  cases i with
  | hold => exact ⟨s, exec_hold s, hw⟩
  | seed k => exact ⟨_, exec_seed k s, rfl⟩
  | byte c => exact ⟨_, exec_byte_of_holds c hv, rfl⟩
  | reserved => cases hi

/-- No command touches the triples the host has still to present (R26). -/
theorem exec_inputs {i : Instr} {s t : State} (h : exec i s = .next t) : t.inputs = s.inputs := by
  rcases exec_next_cases h with ⟨-, rfl⟩ | ⟨k, -, rfl⟩ | ⟨c, v, -, -, rfl⟩ <;> rfl

/-- Settles O16: one clause for each way a command answers a next state. -/
theorem commandFrame : Obligations.CommandFrame := by
  intro i s t h
  refine ⟨exec_inputs h, ?_⟩
  rcases exec_next_cases h with ⟨rfl, rfl⟩ | ⟨k, rfl, rfl⟩ | ⟨c, v, rfl, hv, rfl⟩
  · simp
  · simp
  · simp [hv]

/-- Settles O5: the port reads CRC before the edge, and the step of the decoded BYTE writes the byte step. -/
theorem resultIsReadAfterTheLastStep : Obligations.ResultIsReadAfterTheLastStep := fun _ _ _ _ c hv hs he =>
  ⟨crcPort_of_holds hv, _, (step_of_command hs he).trans (exec_byte_of_holds c hv), rfl,
    crcPort_of_holds (State.writeCrc_crc _ _)⟩

/-- Settles O19: a step needs an input triple. -/
theorem runEndsWhereInputsEnd : Obligations.RunEndsWhereInputsEnd := fun _ => step_nil

/-- The only way a command is refused (R41). -/
theorem exec_refused_iff (i : Instr) (s : State) (e : Refusal) :
    exec i s = .refused e ↔ e = .reservedOpcode ∧ i = .reserved := by
  cases i with
  | hold => simp
  | seed k => simp
  | byte c =>
    have hne : exec (.byte c) s ≠ .refused e := State.updateCrc_not_refused s _ e
    simp [hne]
  | reserved => simp [exec, execReserved, eq_comm]

theorem exec_fault_iff (i : Instr) (s : State) (e : Fault) :
    exec i s = .fault e ↔ s.crc = .unwritten ∧ e = .unwrittenAccumulator ∧ ∃ c, i = .byte c := by
  refine ⟨fun h => ?_, ?_⟩
  · obtain ⟨hi, hc, he⟩ := exec_fault_cases h
    exact ⟨hc, he, hi⟩
  · rintro ⟨hc, rfl, c, rfl⟩
    exact exec_byte_of_unwritten c hc

theorem step_fault_iff (s : State) (e : Fault) :
    step s = .fault e ↔ s.crc = .unwritten ∧ e = .unwrittenAccumulator ∧
      ∃ p rest c, s.inputs = p :: rest ∧ decodePins p = .command (.byte c) := by
  cases hs : s.inputs with
  | nil => simp [step_nil hs]
  | cons p rest =>
    cases he : decodePins p with
    | reset => simp [step_of_reset hs he, he]
    | command i => simp [step_of_command hs he, exec_fault_iff, he]

theorem step_refused_iff (s : State) (e : Refusal) :
    step s = .refused e ↔ (e = .endOfRun ∧ s.inputs = []) ∨
      (e = .reservedOpcode ∧ ∃ p rest, s.inputs = p :: rest ∧ decodePins p = .command .reserved) := by
  cases hs : s.inputs with
  | nil => simpa [step_nil hs] using eq_comm
  | cons p rest =>
    cases he : decodePins p with
    | reset => simp [step_of_reset hs he, he]
    | command i => simp [step_of_command hs he, exec_refused_iff, he]

/-- Settles O21: a step stops where its inputs end, or as its command does. -/
theorem stopsAreExactlyThese : Obligations.StopsAreExactlyThese := ⟨step_fault_iff, step_refused_iff⟩

end Sys2Proof.Machine
end

section
/-! Proofs of the family "other", whole runs (spec/70_reset_and_hazards.md R109 to R115): the invariant that CRC is
written and what follows from it, the triples a run takes, and the host's two duties, by induction over the
triples. -/

namespace Sys2Proof.Machine

/-- Settles O23: the state after reset holds the reset value. -/
theorem crcWrittenAtReset : Obligations.CrcWrittenAtReset := (crcWritten_iff State.reset).2 ⟨_, State.reset_crc⟩

/-- Settles O24: a command or a reset that answers a next state leaves a written CRC written, and the one fault
needs an unwritten CRC. -/
theorem stepKeepsCrcWritten : Obligations.StepKeepsCrcWritten := fun _ hw =>
  ⟨fun _ h => step_keeps_crcWritten hw h, step_ne_fault_of_crcWritten hw⟩

/-- From a written CRC the port shows a value after each step (R36, R107). -/
theorem observations_are_values_of_crcWritten (n : Nat) {s : State} (hw : CrcWritten s) :
    ∀ o ∈ observations n s, ∃ v, o = .ok v := by
  induction n generalizing s with
  | zero => simp [observations]
  | succ n ih =>
    cases hstep : step s with
    | next t =>
      have ht : CrcWritten t := step_keeps_crcWritten hw hstep
      obtain ⟨v, hv⟩ := (crcWritten_iff t).1 ht
      rw [observations_succ_of_next hstep, List.forall_mem_cons]
      exact ⟨⟨v, crcPort_of_holds hv⟩, ih ht⟩
    | fault e => simp [observations_succ_of_fault n hstep]
    | refused e => simp [observations_succ_of_refused n hstep]

/-- Settles O25: the invariant along a run, for its end and for what the port shows along it. -/
theorem noRunFromWrittenCrcFaults : Obligations.NoRunFromWrittenCrcFaults := fun n _ hw =>
  ⟨run_ne_fault_of_crcWritten n hw, observations_are_values_of_crcWritten n hw⟩

/-- A step that completes takes the first triple and leaves the others (R26, R110). -/
theorem step_takes_first_input {s t : State} (h : step s = .next t) : ∃ p, s.inputs = p :: t.inputs := by
  obtain ⟨p, rest, hs, ⟨-, rfl⟩ | ⟨-, hexec⟩⟩ := step_next_cases h
  · exact ⟨p, hs⟩
  · exact ⟨p, by rw [hs, exec_inputs hexec]⟩

/-- Settles O20: by induction on the number of steps, each of which takes the first triple. -/
theorem stepTakesExactlyOneInput : Obligations.StepTakesExactlyOneInput := by
  intro n
  induction n with
  | zero =>
    intro s t h
    cases h
    simp
  | succ n ih =>
    intro s t h
    obtain ⟨u, hstep, hrun⟩ := run_succ_next_cases h
    obtain ⟨p, hp⟩ := step_takes_first_input hstep
    simpa [hp] using ih u t hrun

theorem completes_of_inputs_nil {s : State} (hs : s.inputs = []) : Completes s :=
  ⟨s, by rw [hs]; rfl⟩

/-- After a step that completes, what is left to present decides. -/
theorem completes_iff_of_next {s t : State} (h : step s = .next t) : Completes s ↔ Completes t := by
  obtain ⟨p, hp⟩ := step_takes_first_input h
  rw [Completes, Completes, hp, List.length_cons, run_succ_of_next h]

/-- A state with inputs left whose step stops does not complete. -/
theorem not_completes_of_step_stops {s : State} (hs : s.inputs ≠ []) (h : ∀ t, step s ≠ .next t) :
    ¬ Completes s := by
  rintro ⟨t, ht⟩
  obtain ⟨n, hn⟩ := Nat.exists_eq_succ_of_ne_zero (List.length_pos_iff.2 hs).ne'
  rw [hn] at ht
  obtain ⟨u, hu, -⟩ := run_succ_next_cases ht
  exact h u hu

/-- A step that completes leaves the duties on the remaining triples, from CRC as it is then (R107, R109). -/
theorem safeInputs_cons_of_next {s t : State} {p : Pins} {ps : List Pins} (hs : s.inputs = p :: ps)
    (h : step s = .next t) : safeInputs s.crc.written (p :: ps) = safeInputs t.crc.written ps := by
  cases he : decodePins p with
  | reset =>
    rw [step_of_reset hs he] at h
    cases h
    simp [safeInputs, he, Accumulator.written]
  | command i =>
    rw [step_of_command hs he] at h
    rcases exec_next_cases h with ⟨rfl, rfl⟩ | ⟨k, rfl, rfl⟩ | ⟨c, v, rfl, hv, rfl⟩
    · simp [safeInputs, he]
    · simp [safeInputs, he, Accumulator.written]
    · have hc : s.crc = .holds v := hv
      simp [safeInputs, he, hc, Accumulator.written]

/-- The two steps that stop with inputs left are the two that the duties forbid (R109, R115). -/
theorem safeInputs_cons_of_stop {s : State} {p : Pins} {ps : List Pins} (hs : s.inputs = p :: ps)
    (h : ∀ t, step s ≠ .next t) : safeInputs s.crc.written (p :: ps) = false := by
  cases hstep : step s with
  | next t => exact absurd hstep (h t)
  | fault e =>
    obtain ⟨hc, -, p', rest, c, hs', he⟩ := (step_fault_iff s e).1 hstep
    obtain ⟨rfl, rfl⟩ := List.cons.inj (hs.symm.trans hs')
    simp [safeInputs, he, hc, Accumulator.written]
  | refused e =>
    rcases (step_refused_iff s e).1 hstep with ⟨-, hnil⟩ | ⟨-, p', rest, hs', he⟩
    · simp [hs] at hnil
    · obtain ⟨rfl, rfl⟩ := List.cons.inj (hs.symm.trans hs')
      simp [safeInputs, he]

/-- The two duties on a list of triples are what its run needs. -/
theorem safeInputs_iff_completes (ps : List Pins) {s : State} (hs : s.inputs = ps) :
    safeInputs s.crc.written ps = true ↔ Completes s := by
  induction ps generalizing s with
  | nil => simp [safeInputs, completes_of_inputs_nil hs]
  | cons p ps ih =>
    by_cases hnext : ∃ t, step s = .next t
    · obtain ⟨t, hstep⟩ := hnext
      obtain ⟨p', hp'⟩ := step_takes_first_input hstep
      obtain ⟨-, ht⟩ := List.cons.inj (hs.symm.trans hp')
      rw [safeInputs_cons_of_next hs hstep, completes_iff_of_next hstep, ih ht.symm]
    · have hstop : ∀ t, step s ≠ .next t := not_exists.1 hnext
      have hnot : ¬ Completes s := not_completes_of_step_stops (by simp [hs]) hstop
      simp [safeInputs_cons_of_stop hs hstop, hnot]

/-- Settles O26: the equivalence of the duties with completion, over the state's own inputs. -/
theorem runsCompleteExactlyWhenInputsAreSafe : Obligations.RunsCompleteExactlyWhenInputsAreSafe :=
  fun s => safeInputs_iff_completes s.inputs rfl

/-- Settles O28: a run over decoded lines leaves their effect, in which HOLD lines have no part. -/
theorem holdStepsChangeNoResult : Obligations.HoldStepsChangeNoResult := by
  intro v ls ls' ps ps' rest hhold hps hps'
  refine ⟨_, run_of_lines v ps rest ls hps, ?_⟩
  rw [run_of_lines v ps' rest ls' hps', linesEffect_eq_of_filter_hold_eq v hhold]

end Sys2Proof.Machine
end

section
/-! Proofs of the family "other", the transaction UPDATE on the machine (spec/42_update.md R71, R72;
spec/70_reset_and_hazards.md R113): inputs that are the BYTEs of a buffer once their HOLDs are taken out are steps of
listing lines, and the run over them folds the buffer. -/

namespace Sys2Proof.Machine

/-- Inputs whose decoded sequence is `ls` once their HOLDs are taken out decode to lines of which the same holds. -/
theorem exists_lines_of_filter_hold_eq {ps : List Pins} {ls : List Line}
    (h : (ps.map decodePins).filter (· != .command .hold) = ls.map Line.event) :
    ∃ ls' : List Line, ps.map decodePins = ls'.map Line.event ∧ ls'.filter (· != .hold) = ls := by
  induction ps generalizing ls with
  | nil =>
    obtain rfl : ls = [] := by simpa [eq_comm] using h
    exact ⟨[], rfl, rfl⟩
  | cons p ps ih =>
    by_cases hp : decodePins p = .command .hold
    · obtain ⟨ls', hps, hls⟩ := ih (by simpa [hp] using h)
      exact ⟨.hold :: ls', by simp [hp, hps, Line.event], by simpa using hls⟩
    · rw [List.map_cons, List.filter_cons_of_pos (by simpa using hp)] at h
      obtain ⟨l, ls, rfl, hl, hls⟩ := List.map_eq_cons_iff.1 h.symm
      obtain ⟨ls', hps, hls'⟩ := ih hls.symm
      have hne : l ≠ .hold := by
        rintro rfl
        exact hp hl.symm
      exact ⟨l :: ls', by simp [hl, hps], by simp [hne, hls']⟩

/-- The BYTEs of a buffer, HOLDs anywhere, fold the buffer into a written CRC (R72). -/
theorem run_of_bytes {s : State} {k : Byte} {b : List Byte} {ps rest : List Pins} (hc : s.crc = .holds k)
    (hs : s.inputs = ps ++ rest)
    (h : (ps.map decodePins).filter (· != .command .hold) = b.map fun c => .command (.byte c)) :
    run ps.length s = .next { crc := .holds (update k b), inputs := rest } := by
  obtain ⟨ls, hps, hls⟩ := exists_lines_of_filter_hold_eq (ls := b.map .byte) (by rw [h, List.map_map]; rfl)
  obtain rfl : s = { crc := .holds k, inputs := ps ++ rest } := by rw [← hc, ← hs]
  rw [run_of_lines k ps rest ls hps, ← linesEffect_filter_hold, hls, linesEffect_map_byte]

/-- SEED and then the BYTEs of a buffer, HOLDs anywhere, leave `Update(k, b)`, whatever CRC was before (R71). -/
theorem run_of_seed_bytes {s : State} {k : Byte} {b : List Byte} {ps rest : List Pins}
    (hs : s.inputs = ps ++ rest)
    (h : (ps.map decodePins).filter (· != .command .hold) =
      .command (.seed k) :: b.map fun c => .command (.byte c)) :
    run ps.length s = .next { crc := .holds (update k b), inputs := rest } := by
  induction ps generalizing s with
  | nil => cases h
  | cons p ps ih =>
    by_cases hp : decodePins p = .command .hold
    · rw [List.length_cons, run_succ_of_next ((step_of_command hs hp).trans (exec_hold _))]
      exact ih rfl (by simpa [hp] using h)
    · rw [List.map_cons, List.filter_cons_of_pos (by simpa using hp)] at h
      obtain ⟨hseed, hbytes⟩ := List.cons.inj h
      rw [List.length_cons, run_succ_of_next ((step_of_command hs hseed).trans (exec_seed k _))]
      exact run_of_bytes rfl rfl hbytes

/-- Settles O29: the HOLDs before the SEED change nothing, the SEED writes k, and the BYTEs fold the buffer. -/
theorem seedThenBytesComputeUpdate : Obligations.SeedThenBytesComputeUpdate := fun _ _ _ _ _ hs h =>
  ⟨_, run_of_seed_bytes hs h, rfl, crcPort_of_holds rfl, rfl⟩

/-- Settles O30: the BYTEs are lines of a listing, whose effect is the fold of the buffer. -/
theorem bytesAloneContinueUpdate : Obligations.BytesAloneContinueUpdate := fun _ _ _ _ _ hc hs h =>
  ⟨_, run_of_bytes hc hs h, rfl, crcPort_of_holds rfl, rfl⟩

theorem assemble_append (ls ls' : List Line) : assemble (ls ++ ls') = assemble ls ++ assemble ls' :=
  List.map_append

/-- Settles O31: three transactions in turn, each from whatever the one before left; the third continues the first
from its result. -/
theorem suspendedStreamResumesUnchanged : Obligations.SuspendedStreamResumesUnchanged := by
  intro s k k' a b₁ b₂ b' rest ha hs
  subst ha
  have hs : s.inputs = assemble (Pseudo.expand (.update k b₁)) ++ (assemble (Pseudo.expand (.update k' b')) ++
      (assemble (Pseudo.expand (.update (update k b₁) b₂)) ++ rest)) := by
    rw [hs, assemble_append, assemble_append, List.append_assoc, List.append_assoc]
    rfl
  refine ⟨_, _, _, run_updateTransaction hs, crcPort_of_holds rfl, run_updateTransaction rfl, crcPort_of_holds rfl,
    run_updateTransaction rfl, ?_, rfl⟩
  rw [update_append]
  exact crcPort_of_holds rfl

end Sys2Proof.Machine
end

section
/-! Proofs of the family "other", the bit step (spec/40_bitstep.md R51, R53, R56): its bits, its linearity and its
inverse; and the source's variable that grows past 8 bits, whose low 8 bits are the accumulator. -/

namespace Sys2Proof.Machine

/-- A byte written by its bits, read bit by bit. -/
theorem getLsbD_byteOfBits (b7 b6 b5 b4 b3 b2 b1 b0 : Bool) (i : Nat) :
    (byteOfBits b7 b6 b5 b4 b3 b2 b1 b0).getLsbD i = [b0, b1, b2, b3, b4, b5, b6, b7].getD i false := by
  change BitVec.getLsbD (w := 1 + 1 + 1 + 1 + 1 + 1 + 1 + 1) _ i = _
  simp only [byteOfBits, BitVec.getLsbD_append, BitVec.getLsbD_ofBool]
  rcases i with _ | _ | _ | _ | _ | _ | _ | _ | i <;> simp

theorem byteOfBits_own_bits (x : Byte) :
    byteOfBits (x.getLsbD 7) (x.getLsbD 6) (x.getLsbD 5) (x.getLsbD 4) (x.getLsbD 3) (x.getLsbD 2) (x.getLsbD 1)
      (x.getLsbD 0) = x := by
  apply BitVec.eq_of_getLsbD_eq
  intro i hi
  rw [getLsbD_byteOfBits]
  interval_cases i <;> rfl

/-- At a tap the feedback bit is added to what is shifted in (R51). -/
theorem bitStep_getLsbD_of_tap (r : Byte) (d : Bool) {i : Nat} (hi : Config.poly.getLsbD i = true) :
    (bitStep r d).getLsbD i = ((shiftLeftOne r).getLsbD i ^^ (r.getLsbD 7 ^^ d)) := by
  rw [bitStep_getLsbD, hi, Bool.and_true, feedbackBit]

/-- Stage 0 takes the feedback bit itself (R51). -/
theorem bitStep_getLsbD_zero (r : Byte) (d : Bool) : (bitStep r d).getLsbD 0 = (r.getLsbD 7 ^^ d) := by
  rw [bitStep_getLsbD_of_tap r d rfl, shiftLeftOne_getLsbD_zero, Bool.false_xor]

theorem bitStep_getLsbD_one (r : Byte) (d : Bool) :
    (bitStep r d).getLsbD 1 = (r.getLsbD 0 ^^ (r.getLsbD 7 ^^ d)) := by
  rw [bitStep_getLsbD_of_tap r d rfl, shiftLeftOne_getLsbD_succ r (show 0 < 7 by decide)]

theorem bitStep_getLsbD_two (r : Byte) (d : Bool) :
    (bitStep r d).getLsbD 2 = (r.getLsbD 1 ^^ (r.getLsbD 7 ^^ d)) := by
  rw [bitStep_getLsbD_of_tap r d rfl, shiftLeftOne_getLsbD_succ r (show 1 < 7 by decide)]

/-- The stages above the taps only shift (R51). -/
theorem bitStep_getLsbD_succ (r : Byte) (d : Bool) {i : Nat} (hi : 2 ≤ i) (hi7 : i < 7) :
    (bitStep r d).getLsbD (i + 1) = r.getLsbD i := by
  have hpoly : Config.poly.getLsbD (i + 1) = false := by
    interval_cases i <;> rfl
  rw [bitStep_getLsbD, hpoly, shiftLeftOne_getLsbD_succ r hi7, Bool.and_false, Bool.xor_false]

theorem bitStep_eq_bitStepTaps (r : Byte) (d : Bool) : bitStep r d = bitStepTaps r d := by
  have hshift : ∀ i, 2 ≤ i ∧ i < 7 → (bitStep r d).getLsbD (i + 1) = r.getLsbD i := fun _ hi =>
    bitStep_getLsbD_succ r d hi.1 hi.2
  rw [← byteOfBits_own_bits (bitStep r d), bitStep_getLsbD_zero, bitStep_getLsbD_one, bitStep_getLsbD_two,
    hshift 2 (by decide), hshift 3 (by decide), hshift 4 (by decide), hshift 5 (by decide), hshift 6 (by decide)]
  rfl

/-- Settles O35: the bits of a bit step are the printed equations, and a byte is made of its bits. -/
theorem bitStepIsAShiftRegisterWithThreeTaps : Obligations.BitStepIsAShiftRegisterWithThreeTaps := fun r d =>
  ⟨bitStep_getLsbD_zero r d, bitStep_getLsbD_one r d, bitStep_getLsbD_two r d,
    fun _ hi hi7 => bitStep_getLsbD_succ r d hi hi7, bitStep_eq_bitStepTaps r d⟩

/-- The bit step is linear over exclusive or: shift and feedback are (R56). -/
theorem bitStep_xor (r s : Byte) (d e : Bool) :
    bitStep (r ^^^ s) (d ^^ e) = bitStep r d ^^^ bitStep s e := by
  have hshift : shiftLeftOne (r ^^^ s) = shiftLeftOne r ^^^ shiftLeftOne s := BitVec.shiftLeft_xor_distrib r s 1
  apply BitVec.eq_of_getLsbD_eq
  intro i _
  simp only [BitVec.getLsbD_xor, bitStep_getLsbD, hshift, feedbackBit_xor, Bool.and_xor_distrib_right, Bool.xor_assoc,
    Bool.xor_left_comm]

/-- The data bit acts as the top bit of the accumulator does (R56). -/
theorem bitStep_eq_fold_top_bit (r : Byte) (d : Bool) :
    bitStep r d = bitStep (r ^^^ (if d then 0x80#8 else 0x00#8)) false := by
  have htop : bitStep 0x00#8 d = bitStep (if d then 0x80#8 else 0x00#8) false := by cases d <;> rfl
  calc bitStep r d
      = bitStep r false ^^^ bitStep 0x00#8 d := by simpa using bitStep_xor r 0x00#8 false d
    _ = bitStep (r ^^^ (if d then 0x80#8 else 0x00#8)) false := by
      rw [htop, ← bitStep_xor, Bool.xor_self]

/-- The printed inverse: bit 0 of the result is the feedback bit, which gives back the shifted byte and, with the
data bit, the discarded top bit (R56). -/
theorem bitUnstep_bitStep (r : Byte) (d : Bool) : bitUnstep (bitStep r d) d = r := by
  have hfb : (bitStep r d).getLsbD 0 = feedbackBit r d := bitStep_getLsbD_zero r d
  have hshift : bitStep r d ^^^ (if feedbackBit r d = true then 0x07#8 else 0x00#8) = shiftLeftOne r := by
    cases h : feedbackBit r d <;> simp [bitStep, h, Config.poly]
  have htop : (feedbackBit r d ^^ d) = r.getLsbD 7 := by simp [feedbackBit]
  have hlow : ∀ i, i < 7 → (shiftLeftOne r).getLsbD (i + 1) = r.getLsbD i := fun _ =>
    shiftLeftOne_getLsbD_succ r
  rw [bitUnstep, hfb, hshift, htop, hlow 0 (by decide), hlow 1 (by decide), hlow 2 (by decide),
    hlow 3 (by decide), hlow 4 (by decide), hlow 5 (by decide), hlow 6 (by decide), byteOfBits_own_bits]

theorem bitUnstep_leftInverse (d : Bool) : Function.LeftInverse (bitUnstep · d) (bitStep · d) :=
  fun r => bitUnstep_bitStep r d

theorem bitStep_bijective (d : Bool) : Function.Bijective fun r => bitStep r d :=
  Finite.injective_iff_bijective.1 (bitUnstep_leftInverse d).injective

theorem bitStep_bitUnstep (r : Byte) (d : Bool) : bitStep (bitUnstep r d) d = r :=
  (bitUnstep_leftInverse d).rightInverse_of_surjective (bitStep_bijective d).2 r

/-- Settles O36: linearity from that of shift and feedback, the data bit as a top bit, and the printed inverse, a left
inverse on a finite type. -/
theorem bitStepLaws : Obligations.BitStepLaws :=
  ⟨bitStep_xor, rfl, fun r d => by simpa using bitStep_xor r 0x00#8 false d, bitStep_eq_fold_top_bit,
    bitStep_bijective, fun r d => ⟨bitUnstep_bitStep r d, bitStep_bitUnstep r d⟩⟩

/-- The source's test of the mask 0x80 on the wide variable reads the top bit of the accumulator (R50, R53). -/
theorem and_topMask_ne_zero (x : Nat) : (x &&& 0x80 != 0) = (BitVec.ofNat 8 x).getLsbD 7 := by
  have hbit : x &&& 0x80 = (x.testBit 7).toNat * 0x80 := Nat.and_two_pow x 7
  rw [hbit, BitVec.getLsbD_ofNat]
  cases x.testBit 7 <;> rfl

theorem ofNat_shiftLeft_one (x : Nat) : BitVec.ofNat 8 (x <<< 1) = shiftLeftOne (BitVec.ofNat 8 x) := by
  apply BitVec.eq_of_toNat_eq
  simp [shiftLeftOne, Nat.shiftLeft_eq]

/-- What stands above the low 8 bits has no part in a bit step (R53). -/
theorem ofNat_bitStepWide (x : Nat) (d : Bool) :
    BitVec.ofNat 8 (bitStepWide x d) = bitStep (BitVec.ofNat 8 x) d := by
  have hfb : ((x &&& 0x80 != 0) ^^ d) = feedbackBit (BitVec.ofNat 8 x) d := by
    rw [and_topMask_ne_zero, feedbackBit]
  cases h : feedbackBit (BitVec.ofNat 8 x) d <;>
    simp [bitStepWide, bitStep, hfb, h, BitVec.ofNat_xor, ofNat_shiftLeft_one, Config.poly]

theorem foldl_bitStepWide_mod (x : Nat) (ds : List Bool) :
    ds.foldl bitStepWide x % 256 = (bitSteps (BitVec.ofNat 8 x) ds).toNat :=
  calc ds.foldl bitStepWide x % 256
      = (BitVec.ofNat 8 (ds.foldl bitStepWide x)).toNat := rfl
    _ = (bitSteps (BitVec.ofNat 8 x) ds).toNat := by
      rw [bitSteps, List.foldl_hom (BitVec.ofNat 8) fun y d => (ofNat_bitStepWide y d).symm]

theorem and_byteMask (x : Nat) : x &&& 0xFF = x % 256 := Nat.and_two_pow_sub_one_eq_mod x 8

/-- The byte loop with the source's mask after its eight bits (R53). -/
theorem byteStepLateMask_toNat (r c : Byte) : byteStepLateMask r.toNat c = (byteStep r c).toNat := by
  rw [byteStepLateMask, and_byteMask, foldl_bitStepWide_mod, BitVec.ofNat_toNat, BitVec.setWidth_eq, byteStep]

/-- The source's loop over the buffer; its final mask masks a byte (R53). -/
theorem updateLateMask_toNat (k : Byte) (b : List Byte) : updateLateMask k.toNat b = (update k b).toNat := by
  rw [updateLateMask, List.foldl_hom BitVec.toNat byteStepLateMask_toNat, ← update_eq_foldl, and_byteMask]
  exact Nat.mod_eq_of_lt (update k b).isLt

/-- Settles O37: reduction to 8 bits commutes with each bit step of the wide variable, so with the folds over bits and
over bytes. -/
theorem lateMaskIsTheSameFunction : Obligations.LateMaskIsTheSameFunction :=
  ⟨foldl_bitStepWide_mod, byteStepLateMask_toNat, updateLateMask_toNat⟩

end Sys2Proof.Machine
end

section
/-! Proofs of the family "other", the byte step and its forms (spec/41_commands.md R63 to R66): functions linear over
exclusive or, which the eight unit bytes determine; the byte step as one of them; and the printed network and table. -/

namespace Sys2Proof.Machine

/-- A function of bytes that is linear over exclusive or. -/
def XorLinear (f : Byte → Byte) : Prop := ∀ x y, f (x ^^^ y) = f x ^^^ f y

theorem XorLinear.map_zero {f : Byte → Byte} (hf : XorLinear f) : f 0x00#8 = 0x00#8 := by
  have h := hf 0x00#8 0x00#8
  rwa [BitVec.xor_self, BitVec.xor_self] at h

theorem XorLinear.iterate {f : Byte → Byte} (hf : XorLinear f) (n : Nat) : XorLinear f^[n] := by
  induction n with
  | zero => exact fun _ _ => rfl
  | succ n ih =>
    intro x y
    simp only [Function.iterate_succ_apply', ih x y, hf (f^[n] x)]

/-- The exclusive or of the columns at the set bits of a byte. -/
def xorColumns (col : Nat → Byte) (x : Byte) : Byte :=
  (List.range 8).foldl (fun n j => if x.getLsbD j then n ^^^ col j else n) 0x00#8

theorem getLsbD_unitByte (n : Nat) {i : Nat} (hi : i < 8) : (0x01#8 <<< n).getLsbD i = decide (n = i) := by
  rw [← BitVec.twoPow_eq, BitVec.getLsbD_twoPow]
  by_cases h : n = i <;> simp [h, hi]

/-- The unit bytes at the set bits below n are the low n bits. -/
theorem foldl_unitBytes_getLsbD (x : Byte) (n : Nat) {i : Nat} (hi : i < 8) :
    ((List.range n).foldl (fun m j => if x.getLsbD j then m ^^^ (0x01#8 <<< j) else m) 0x00#8).getLsbD i =
      (decide (i < n) && x.getLsbD i) := by
  induction n with
  | zero => simp
  | succ n ih =>
    rw [List.range_succ, List.foldl_concat, apply_ite (BitVec.getLsbD · i), BitVec.getLsbD_xor, ih,
      getLsbD_unitByte n hi]
    rcases eq_or_ne n i with rfl | hne
    · cases hx : x.getLsbD n <;> simp
    · have hlt : i < n + 1 ↔ i < n := by omega
      simp [hne, hlt]

theorem xorColumns_unitBytes (x : Byte) : xorColumns (0x01#8 <<< ·) x = x := by
  apply BitVec.eq_of_getLsbD_eq
  intro i hi
  rw [xorColumns, foldl_unitBytes_getLsbD x 8 hi, decide_eq_true hi, Bool.true_and]

/-- A linear function is the exclusive or of its columns, its values at the unit bytes (R64). -/
theorem XorLinear.eq_xorColumns {f : Byte → Byte} (hf : XorLinear f) (x : Byte) :
    f x = xorColumns (fun j => f (0x01#8 <<< j)) x := by
  conv_lhs => rw [← xorColumns_unitBytes x, xorColumns]
  rw [← List.foldl_hom f fun n j => ?_, hf.map_zero]
  · rfl
  · cases x.getLsbD j <;> simp [hf n]

/-- Linear functions that agree at the eight unit bytes are equal. -/
theorem XorLinear.ext {f g : Byte → Byte} (hf : XorLinear f) (hg : XorLinear g)
    (h : (List.range 8).map (fun j => f (0x01#8 <<< j)) = (List.range 8).map fun j => g (0x01#8 <<< j))
    (x : Byte) : f x = g x := by
  rw [hf.eq_xorColumns, hg.eq_xorColumns, xorColumns, xorColumns]
  exact List.foldl_ext _ _ _ fun n j hj => by rw [List.map_inj_left.1 h j hj]

/-- Bit steps over data bits that are exclusive ors are linear. -/
theorem bitSteps_xor {ι : Type} (r s : Byte) (is : List ι) (f g : ι → Bool) :
    bitSteps (r ^^^ s) (is.map fun i => f i ^^ g i) = bitSteps r (is.map f) ^^^ bitSteps s (is.map g) := by
  induction is generalizing r s with
  | nil => rfl
  | cons i is ih =>
    simp only [List.map_cons, bitSteps_cons, bitStep_xor]
    exact ih _ _

/-- The byte step is linear over exclusive or, since the bit step is (R66). -/
theorem byteStep_xor (r s c e : Byte) : byteStep (r ^^^ s) (c ^^^ e) = byteStep r c ^^^ byteStep s e := by
  simp only [byteStep, inputBits_eq_map_range, BitVec.getLsbD_xor]
  exact bitSteps_xor ..

@[simp] theorem byteStep_zero_zero : byteStep 0x00#8 0x00#8 = 0x00#8 := byteStep_self 0x00#8

/-- The byte folded in first: it differs from itself by a byte step over its own bits, which is zero (R63). -/
theorem byteStep_eq_xor_zero (r c : Byte) : byteStep r c = byteStep (r ^^^ c) 0x00#8 :=
  calc byteStep r c
      = byteStep (r ^^^ c ^^^ c) (0x00#8 ^^^ c) := by
        rw [BitVec.xor_assoc, BitVec.xor_self, BitVec.xor_zero, BitVec.zero_xor]
    _ = byteStep (r ^^^ c) 0x00#8 := by rw [byteStep_xor, byteStep_self, BitVec.xor_zero]

theorem byteStep_comm (r c : Byte) : byteStep r c = byteStep c r := by
  rw [byteStep_eq_xor_zero, BitVec.xor_comm, ← byteStep_eq_xor_zero]

theorem byteStep_eq_zero_xor (r c : Byte) : byteStep r c = byteStep 0x00#8 (r ^^^ c) :=
  (byteStep_eq_xor_zero r c).trans (byteStep_comm _ _)

theorem inputBits_zero : inputBits 0x00#8 = List.replicate 8 false := by decide

/-- Settles O38: the byte folded in first, by linearity; the bits of a zero byte are eight zeros. -/
theorem byteStepWithByteFoldedInFirst : Obligations.ByteStepWithByteFoldedInFirst := fun r c =>
  ⟨byteStep_eq_xor_zero r c, by rw [byteStep_eq_xor_zero, byteStep, inputBits_zero, byteStepFolded]⟩

theorem bitSteps_bijective (ds : List Bool) : Function.Bijective fun r => bitSteps r ds := by
  induction ds with
  | nil => exact Function.bijective_id
  | cons d ds ih => exact ih.comp (bitStep_bijective d)

theorem byteStep_bijective_left (c : Byte) : Function.Bijective fun r => byteStep r c :=
  bitSteps_bijective (inputBits c)

theorem byteStep_bijective_right (r : Byte) : Function.Bijective fun c => byteStep r c := by
  simpa only [byteStep_comm r] using byteStep_bijective_left r

/-- Settles O41: linearity and bijectivity from those of the bit step; the two arguments play the same part. -/
theorem byteStepLaws : Obligations.ByteStepLaws :=
  ⟨byteStep_xor, byteStep_zero_zero, byteStep_self, byteStep_bijective_left, byteStep_bijective_right⟩

theorem byteStep_zero_xorLinear : XorLinear (byteStep 0x00#8) := fun x y => by
  simpa using byteStep_xor 0x00#8 0x00#8 x y

/-- The printed columns are the byte steps of the unit bytes (R64). -/
theorem networkColumns_eq_map : networkColumns = (List.range 8).map fun j => byteStep 0x00#8 (0x01#8 <<< j) := by
  decide

theorem byteStep_eq_byteStepColumns (r c : Byte) : byteStep r c = byteStepColumns r c := by
  rw [byteStep_eq_zero_xor, byteStep_zero_xorLinear.eq_xorColumns, byteStepColumns, xorColumns]
  refine List.foldl_ext _ _ _ fun n j hj => ?_
  simp [networkColumns_eq_map, List.mem_range.1 hj]

theorem byteOfBits_xor (a7 a6 a5 a4 a3 a2 a1 a0 b7 b6 b5 b4 b3 b2 b1 b0 : Bool) :
    byteOfBits a7 a6 a5 a4 a3 a2 a1 a0 ^^^ byteOfBits b7 b6 b5 b4 b3 b2 b1 b0 =
      byteOfBits (a7 ^^ b7) (a6 ^^ b6) (a5 ^^ b5) (a4 ^^ b4) (a3 ^^ b3) (a2 ^^ b2) (a1 ^^ b1) (a0 ^^ b0) := by
  apply BitVec.eq_of_getLsbD_eq
  intro i hi
  simp only [BitVec.getLsbD_xor, getLsbD_byteOfBits]
  interval_cases i <;> rfl

/-- Each bit of the network is an exclusive or of bits. -/
theorem byteStepNetwork_zero_xorLinear : XorLinear (byteStepNetwork 0x00#8) := fun x y => by
  simp only [byteStepNetwork, BitVec.zero_xor, BitVec.getLsbD_xor, byteOfBits_xor, Bool.xor_assoc, Bool.xor_left_comm]

theorem byteStep_eq_byteStepNetwork (r c : Byte) : byteStep r c = byteStepNetwork r c :=
  calc byteStep r c
      = byteStep 0x00#8 (r ^^^ c) := byteStep_eq_zero_xor r c
    _ = byteStepNetwork 0x00#8 (r ^^^ c) :=
      byteStep_zero_xorLinear.ext byteStepNetwork_zero_xorLinear (by decide) (r ^^^ c)
    _ = byteStepNetwork r c := by simp only [byteStepNetwork, BitVec.zero_xor]

/-- Settles O39: the network and the columns are linear, as the byte step is, and agree with it at the unit bytes. -/
theorem byteStepIsTheXorNetwork : Obligations.ByteStepIsTheXorNetwork :=
  ⟨byteStep_eq_byteStepNetwork, byteStep_eq_byteStepColumns, networkColumns_eq_map⟩

/-- The printed values, evaluated (R65). -/
theorem crcTable_eq_map : crcTable = (List.range 256).map fun i => byteStep 0x00#8 (BitVec.ofNat 8 i) := by
  decide +kernel

theorem crcTable_length : crcTable.length = 256 := by
  rw [crcTable_eq_map, List.length_map, List.length_range]

theorem crcTable_getElem? (x : Byte) : crcTable[x.toNat]? = some (byteStep 0x00#8 x) := by
  simp [crcTable_eq_map, x.isLt]

theorem crcTable_getD (x : Byte) : crcTable.getD x.toNat 0x00#8 = byteStep 0x00#8 x := by
  rw [List.getD_eq_getElem?_getD, crcTable_getElem?, Option.getD_some]

/-- The entries are distinct since a byte step is injective in its byte (R65). -/
theorem crcTable_nodup : crcTable.Nodup := by
  rw [crcTable_eq_map]
  refine List.Nodup.map_on (fun i hi j hj h => ?_) List.nodup_range
  have hij : BitVec.ofNat 8 i = BitVec.ofNat 8 j := (byteStep_bijective_right 0x00#8).1 h
  simpa [Nat.mod_eq_of_lt (List.mem_range.1 hi), Nat.mod_eq_of_lt (List.mem_range.1 hj)] using
    congrArg BitVec.toNat hij

theorem byteStep_eq_byteStepTable (r c : Byte) : byteStep r c = byteStepTable r c := by
  rw [byteStepTable, crcTable_getD, ← byteStep_eq_zero_xor]

/-- Settles O40: the printed values are the byte steps from 0x00, which are a bijection and give every byte step. -/
theorem printedTableGivesEveryByteStep : Obligations.PrintedTableGivesEveryByteStep :=
  ⟨crcTable_length, crcTable_nodup, crcTable_getElem?, byteStep_eq_byteStepTable⟩

/-- Settles O47: by induction over the buffer, one lookup for each byte step. -/
theorem tableFormOfUpdate : Obligations.TableFormOfUpdate := by
  intro k b
  induction b generalizing k with
  | nil => rfl
  | cons c b ih => rw [update_cons, ih, byteStep_eq_byteStepTable, updateTable, byteStepTable]

end Sys2Proof.Machine
end

section
/-! Proofs of the family "other", the laws of UPDATE (spec/42_update.md R82) and zero bytes (log 15, log 16): a zero
byte is a linear map of period 127, a prime, so a byte that some number of zero bytes not divisible by 127 leaves alone
is left alone by one. -/

namespace Sys2Proof.Machine

/-- UPDATE is linear over exclusive or, byte by byte, since the byte step is (R82). -/
theorem update_xor (k m : Byte) {b e : List Byte} (h : b.length = e.length) :
    update (k ^^^ m) (xorBytes b e) = update k b ^^^ update m e := by
  induction b generalizing k m e with
  | nil =>
    obtain rfl : e = [] := List.length_eq_zero_iff.1 h.symm
    rfl
  | cons c b ih =>
    obtain ⟨d, e, rfl⟩ := List.exists_cons_of_length_eq_add_one h.symm
    calc update (k ^^^ m) (xorBytes (c :: b) (d :: e))
        = update (byteStep (k ^^^ m) (c ^^^ d)) (xorBytes b e) := rfl
      _ = update k (c :: b) ^^^ update m (d :: e) := by
        rw [byteStep_xor, ih _ _ (Nat.succ.inj h), update_cons, update_cons]

theorem zeros_succ (n : Nat) : zeros (n + 1) = 0x00#8 :: zeros n := rfl

@[simp] theorem length_zeros (n : Nat) : (zeros n).length = n := List.length_replicate

theorem xorBytes_zeros (b : List Byte) : xorBytes b (zeros b.length) = b := by
  induction b with
  | nil => rfl
  | cons c b ih => exact congrArg₂ List.cons BitVec.xor_zero ih

/-- The seed's part and the buffer's part of UPDATE are separable (R82). -/
theorem update_eq_xor_zeros (k : Byte) (b : List Byte) :
    update k b = update 0x00#8 b ^^^ update k (zeros b.length) := by
  rw [← update_xor 0x00#8 k (length_zeros b.length).symm, BitVec.zero_xor, xorBytes_zeros]

theorem update_bijective (b : List Byte) : Function.Bijective fun k => update k b := by
  induction b with
  | nil => exact Function.bijective_id
  | cons c b ih => exact ih.comp (byteStep_bijective_left c)

/-- The byte step of a zero byte, as a map of the accumulator. -/
def zeroByteStep (r : Byte) : Byte := byteStep r 0x00#8

theorem update_zeros (k : Byte) (n : Nat) : update k (zeros n) = zeroByteStep^[n] k := by
  induction n generalizing k with
  | zero => rfl
  | succ n ih => exact ih (zeroByteStep k)

theorem zeroByteStep_xorLinear : XorLinear zeroByteStep := fun x y => byteStep_xor x y 0x00#8 0x00#8

@[simp] theorem update_zero_zeros (n : Nat) : update 0x00#8 (zeros n) = 0x00#8 := by
  rw [update_zeros, (zeroByteStep_xorLinear.iterate n).map_zero]

/-- A message followed by its own checksum gives zero (R82). -/
theorem update_append_own_result (k : Byte) (b : List Byte) : update k (b ++ [update k b]) = 0x00#8 := by
  rw [update_append, update_cons, update_nil, byteStep_self]

/-- Settles O48: linearity and bijectivity by induction over the buffer from those of the byte step; zero bytes fix
the zero seed; a byte step over the accumulator itself gives zero. -/
theorem updateLaws : Obligations.UpdateLaws :=
  ⟨fun k m _ _ h => update_xor k m h, update_eq_xor_zeros, update_zero_zeros,
    fun n b => by rw [update_append, update_zero_zeros], update_append_own_result, update_bijective⟩

/-- The fixed points of a zero byte are read off the printed table: T[r] = r at 00 and FD alone (log 15). -/
theorem byteStep_zero_eq_self_iff (r : Byte) : byteStep r 0x00#8 = r ↔ r = 0x00#8 ∨ r = 0xFD#8 := by
  rw [byteStep_comm, ← crcTable_getD]
  revert r
  decide +kernel

/-- Settles O42: the fixed points in the printed table. -/
theorem zeroByteIsNotSkipped : Obligations.ZeroByteIsNotSkipped := byteStep_zero_eq_self_iff

/-- The bit step of a data bit 0, as a map of the accumulator. -/
def zeroBitStep (r : Byte) : Byte := bitStep r false

theorem zeroBitStep_xorLinear : XorLinear zeroBitStep := fun x y => bitStep_xor x y false false

theorem bitSteps_replicate_false (r : Byte) (n : Nat) : bitSteps r (List.replicate n false) = zeroBitStep^[n] r := by
  induction n generalizing r with
  | zero => rfl
  | succ n ih => exact ih (zeroBitStep r)

theorem zeroByteStep_eq_iterate : zeroByteStep = zeroBitStep^[8] := by
  funext r
  rw [zeroByteStep, byteStep, inputBits_zero, bitSteps_replicate_false]

/-- 127 bit steps of data bit 0 are the identity, since they are at the unit bytes. -/
theorem zeroBitStep_iterate_127 (r : Byte) : zeroBitStep^[127] r = r :=
  (zeroBitStep_xorLinear.iterate 127).ext (g := id) (fun _ _ => rfl) (by decide +kernel) r

theorem zeroByteStep_iterate_127 (r : Byte) : zeroByteStep^[127] r = r := by
  rw [zeroByteStep_eq_iterate, ← Function.iterate_mul, Nat.mul_comm, Function.iterate_mul]
  exact Function.iterate_fixed (zeroBitStep_iterate_127 r) 8

/-- The period 127 is prime, so zero bytes fix a seed in multiples of 127, or one of them fixes it already. -/
theorem zeroByteStep_iterate_eq_self_iff (k : Byte) (m : Nat) :
    zeroByteStep^[m] k = k ↔ zeroByteStep k = k ∨ 127 ∣ m := by
  have hperiod : Function.IsPeriodicPt zeroByteStep 127 k := zeroByteStep_iterate_127 k
  refine ⟨fun h => or_iff_not_imp_right.2 fun hm => ?_, ?_⟩
  · have hcoprime : Nat.gcd 127 m = 1 := (Nat.Prime.coprime_iff_not_dvd (by norm_num)).2 hm
    have hone : Function.IsPeriodicPt zeroByteStep (Nat.gcd 127 m) k := hperiod.gcd h
    rwa [hcoprime] at hone
  · rintro (h | h)
    · exact Function.iterate_fixed h m
    · exact hperiod.trans_dvd h

/-- Settles O52: the bytes after the zeros are injective in the seed, so the zeros themselves must fix it; then the
period and the fixed points of a zero byte. -/
theorem leadingZerosFromAnySeed : Obligations.LeadingZerosFromAnySeed := fun k m b =>
  calc update k (zeros m ++ b) = update k b
      ↔ zeroByteStep^[m] k = k := by
        rw [update_append, ← update_zeros]
        exact (update_bijective b).1.eq_iff
    _ ↔ byteStep k 0x00#8 = k ∨ 127 ∣ m := zeroByteStep_iterate_eq_self_iff k m
    _ ↔ k = 0x00#8 ∨ k = 0xFD#8 ∨ 127 ∣ m := by rw [byteStep_zero_eq_self_iff, or_assoc]

end Sys2Proof.Machine
end

section
/-! Proofs of the family "other", the algebraic reading of UPDATE (spec/00_scope.md R9, log 14): a bit step multiplies
by x and takes the divisor off where the top bit was set, so in the ring of remainders UPDATE is the message
polynomial, shifted; and a byte's polynomial is its own remainder. -/

namespace Sys2Proof.Machine

open Polynomial

/-- Over GF(2) exclusive or is addition. -/
theorem bytePoly_xor (x y : Byte) : bytePoly (x ^^^ y) = bytePoly x + bytePoly y := by
  rw [bytePoly, bytePoly, bytePoly, ← Finset.sum_add_distrib]
  refine Finset.sum_congr rfl fun i _ => ?_
  cases hx : x.getLsbD i <;> cases hy : y.getLsbD i <;> simp [hx, hy, CharTwo.add_self_eq_zero]

@[simp] theorem bytePoly_zero : bytePoly 0x00#8 = 0 := by simp [bytePoly]

theorem degree_bytePoly_lt (v : Byte) : (bytePoly v).degree < 8 := by
  refine mem_degreeLT.1 (Submodule.sum_mem _ fun i hi => ?_)
  split
  · exact mem_degreeLT.2 ((degree_X_pow_le i).trans_lt (by exact_mod_cast Finset.mem_range.1 hi))
  · exact Submodule.zero_mem _

/-- "the divisor polynomial x^8 + x^2 + x + 1" (R9). -/
theorem divisorPoly_eq : divisorPoly = X ^ 8 + X ^ 2 + X + 1 := by
  have hlow : bytePoly 0x07#8 = 1 + X + X ^ 2 := by simp [bytePoly, Finset.sum_range_succ]
  rw [divisorPoly, hlow]
  ring

theorem divisorPoly_monic : divisorPoly.Monic := by
  rw [divisorPoly_eq]
  monicity!

theorem degree_divisorPoly : divisorPoly.degree = 8 := by
  rw [divisorPoly_eq]
  compute_degree!

/-- The discarded top bit is the coefficient that a shift carries past x^7 (R52). -/
theorem bytePoly_shiftLeftOne (r : Byte) :
    bytePoly (shiftLeftOne r) + (if r.getLsbD 7 then X ^ 8 else 0) = X * bytePoly r := by
  have hshift : bytePoly (shiftLeftOne r) = ∑ i ∈ Finset.range 7, if r.getLsbD i then X ^ (i + 1) else 0 := by
    rw [bytePoly, Finset.sum_range_succ', shiftLeftOne_getLsbD_zero]
    simp only [Bool.false_eq_true, if_false, add_zero]
    exact Finset.sum_congr rfl fun i hi => by rw [shiftLeftOne_getLsbD_succ r (Finset.mem_range.1 hi)]
  rw [hshift, bytePoly, Finset.mul_sum]
  simp only [mul_ite, mul_zero, ← pow_succ', Finset.sum_range_succ _ 7]

/-- A bit step of data bit 0 multiplies by x and takes the divisor off where the top bit was set. -/
theorem bytePoly_zeroBitStep (r : Byte) :
    bytePoly (zeroBitStep r) = X * bytePoly r + (if r.getLsbD 7 then divisorPoly else 0) := by
  rw [← bytePoly_shiftLeftOne, zeroBitStep, bitStep, feedbackBit, Bool.xor_false]
  cases r.getLsbD 7
  · simp
  · have hcancel : (X ^ 8 + X ^ 8 : (ZMod 2)[X]) = 0 := CharTwo.add_self_eq_zero _
    simp only [if_true, bytePoly_xor, divisorPoly, Config.poly]
    linear_combination -hcancel

/-- The remainder of a byte's polynomial by the divisor, in the ring of remainders. -/
noncomputable def byteResidue (v : Byte) : AdjoinRoot divisorPoly := AdjoinRoot.mk divisorPoly (bytePoly v)

theorem byteResidue_zeroBitStep (r : Byte) :
    byteResidue (zeroBitStep r) = AdjoinRoot.root divisorPoly * byteResidue r := by
  rw [byteResidue, bytePoly_zeroBitStep, map_add, map_mul, AdjoinRoot.mk_X, byteResidue]
  cases r.getLsbD 7 <;> simp

theorem byteResidue_zeroBitStep_iterate (n : Nat) (r : Byte) :
    byteResidue (zeroBitStep^[n] r) = AdjoinRoot.root divisorPoly ^ n * byteResidue r := by
  induction n with
  | zero => simp
  | succ n ih => rw [Function.iterate_succ_apply', byteResidue_zeroBitStep, ih, pow_succ', mul_assoc]

/-- A byte step adds the byte and multiplies by x^8 (R63). -/
theorem byteResidue_byteStep (r c : Byte) :
    byteResidue (byteStep r c) = AdjoinRoot.root divisorPoly ^ 8 * (byteResidue r + byteResidue c) := by
  rw [byteStep_eq_xor_zero, byteStep, inputBits_zero, bitSteps_replicate_false, byteResidue_zeroBitStep_iterate]
  simp only [byteResidue, bytePoly_xor, map_add]

/-- UPDATE in the ring of remainders: the seed carried past the whole message, and the message times x^8. -/
theorem byteResidue_update (k : Byte) (b : List Byte) :
    byteResidue (update k b) =
      AdjoinRoot.mk divisorPoly (bytePoly k * X ^ (8 * b.length) + messagePoly b * X ^ 8) := by
  induction b generalizing k with
  | nil => simp [messagePoly, byteResidue]
  | cons c b ih =>
    have hstep : AdjoinRoot.mk divisorPoly (bytePoly (byteStep k c)) = _ := byteResidue_byteStep k c
    rw [update_cons, ih]
    simp only [messagePoly, List.length_cons, map_add, map_mul, map_pow, AdjoinRoot.mk_X, hstep, byteResidue]
    ring

/-- A byte that leaves the residue of a polynomial is its remainder (R9). -/
theorem bytePoly_eq_modByMonic {v : Byte} {p : (ZMod 2)[X]} (h : byteResidue v = AdjoinRoot.mk divisorPoly p) :
    bytePoly v = p %ₘ divisorPoly :=
  calc bytePoly v
      = bytePoly v %ₘ divisorPoly :=
        ((modByMonic_eq_self_iff divisorPoly_monic).2 (degree_divisorPoly ▸ degree_bytePoly_lt v)).symm
    _ = p %ₘ divisorPoly := modByMonic_eq_of_dvd_sub divisorPoly_monic (AdjoinRoot.mk_eq_mk.1 h)

/-- Settles O49: the residue of an UPDATE by induction over the buffer, and a byte's polynomial is its own
remainder. -/
theorem updateIsThePolynomialRemainder : Obligations.UpdateIsThePolynomialRemainder :=
  ⟨divisorPoly_eq, fun b => bytePoly_eq_modByMonic (by simpa using byteResidue_update 0x00#8 b),
    fun k b => bytePoly_eq_modByMonic (byteResidue_update k b)⟩

end Sys2Proof.Machine
end

section
/-! Proofs of the family "other", the listing (spec/30_encoding.md R45, log 13): digits, operands, words and lines are
read as they are written, in this order; then the words a line presents. -/

namespace Sys2Proof.Machine

theorem hexValue_hexDigit : ∀ n < 16, hexValue (hexDigit n) = some n := by decide

/-- A character that belongs to a word: it neither ends one nor starts a comment. -/
def isWordChar (c : Char) : Bool := c != ';' && !isBlank c && !isMark c

theorem isWordChar_hexDigit : ∀ n < 16, isWordChar (hexDigit n) = true ∧ hexDigit n ≠ '\n' := by decide

/-- The two digits of a byte. -/
theorem byteDigits_lt (v : Byte) : v.toNat / 16 < 16 ∧ v.toNat % 16 < 16 := by
  have hv : v.toNat < 256 := v.isLt
  omega

theorem parseByte_renderByte (v : Byte) : parseByte (renderByte v) = .ok v := by
  obtain ⟨hhigh, hlow⟩ := byteDigits_lt v
  simp [parseByte, renderByte, hexValue_hexDigit _ hhigh, hexValue_hexDigit _ hlow, Nat.div_add_mod]

theorem renderByte_chars (v : Byte) : ∀ c ∈ renderByte v, isWordChar c = true ∧ c ≠ '\n' := by
  obtain ⟨hhigh, hlow⟩ := byteDigits_lt v
  simp only [renderByte, List.forall_mem_cons]
  exact ⟨by decide, by decide, isWordChar_hexDigit _ hhigh, isWordChar_hexDigit _ hlow, by simp⟩

/-- Characters of a word are collected into the word being read. -/
theorem wordsFrom_of_wordChars (word cs : List Char) (h : ∀ c ∈ cs, isWordChar c = true) :
    wordsFrom word cs = endWord (cs.reverse ++ word) [] := by
  induction cs generalizing word with
  | nil => rfl
  | cons c cs ih =>
    obtain ⟨hc, hcs⟩ := List.forall_mem_cons.1 h
    have hplain : (c == ';') = false ∧ isBlank c = false ∧ isMark c = false := by
      simpa [isWordChar, and_assoc] using hc
    obtain ⟨hcomment, hblank, hmark⟩ := hplain
    simp [wordsFrom, hcomment, hblank, hmark, ih _ hcs]

theorem wordsFrom_renderByte (v : Byte) : wordsFrom [] (renderByte v) = [renderByte v] := by
  rw [wordsFrom_of_wordChars _ _ fun c hc => (renderByte_chars v c hc).1]
  simp [renderByte, endWord]

/-- A line of a mnemonic and an operand is the line that the mnemonic makes of the operand. -/
theorem parseLine_of_operand {text mnemonic : List Char} {make : Byte → Line} {v : Byte}
    (hwords : wordsFrom [] text = [mnemonic, renderByte v])
    (hmake : parseWords [mnemonic, renderByte v] = parseOperandLine make (renderByte v)) :
    parseLine text = .ok [make v] := by
  rw [parseLine, hwords, hmake, parseOperandLine, parseByte_renderByte]

/-- A line is read as it is written (R45). -/
theorem parseLine_render (l : Line) : parseLine l.render = .ok [l] := by
  cases l with
  | hold => rfl
  | reset => rfl
  | seed k => exact parseLine_of_operand (congrArg (List.cons "SEED".toList) (wordsFrom_renderByte k)) rfl
  | byte c => exact parseLine_of_operand (congrArg (List.cons "BYTE".toList) (wordsFrom_renderByte c)) rfl

/-- A written line holds no line feed of its own. -/
theorem newline_notMem_render (l : Line) : '\n' ∉ l.render := by
  have hbyte : ∀ v, '\n' ∉ renderByte v := fun v h => (renderByte_chars v '\n' h).2 rfl
  cases l with
  | hold => decide
  | reset => decide
  | seed k => exact fun h => (List.mem_append.1 h).elim (by decide) (hbyte k)
  | byte c => exact fun h => (List.mem_append.1 h).elim (by decide) (hbyte c)

/-- A text that begins with a line and its line feed is split after them. -/
theorem splitLines_append_newline {line : List Char} (h : '\n' ∉ line) (rest : List Char) :
    splitLines (line ++ '\n' :: rest) = (line, (splitLines rest).1 :: (splitLines rest).2) := by
  induction line with
  | nil => rfl
  | cons c cs ih =>
    obtain ⟨hc, hcs⟩ := List.ne_and_not_mem_of_not_mem_cons h
    simp [splitLines, ih hcs, hc.symm]

/-- A listing is read as it is written, line by line (R45). -/
theorem parseListing_renderListing (ls : List Line) : parseListing (renderListing ls) = .ok ls := by
  induction ls with
  | nil => rfl
  | cons l ls ih =>
    have hrest : parseLines ((splitLines (renderListing ls)).1 :: (splitLines (renderListing ls)).2) = .ok ls := ih
    rw [renderListing, parseListing, splitLines_append_newline (newline_notMem_render l)]
    dsimp only
    rw [parseLines, parseLine_render, hrest]
    rfl

/-- The opcode above the operand: the two fields are an or of words (R38). -/
theorem joinWord_eq_or (op : Opcode) (x : Byte) : joinWord op x = joinWord op 0x00#8 ||| x.setWidth 10 := by
  apply BitVec.eq_of_getLsbD_eq
  intro i hi
  rw [BitVec.getLsbD_or, joinWord_getLsbD, joinWord_getLsbD, BitVec.getLsbD_setWidth, decide_eq_true hi]
  by_cases h8 : i < 8
  · simp [h8]
  · simp [h8, BitVec.getLsbD_of_ge x i (not_lt.1 h8)]

/-- Settles O51: a listing is read line by line as it is written; the pins of a line decode to its event and carry
the word of its command, whose opcode stands above its operand. -/
theorem listingRoundTrip : Obligations.ListingRoundTrip :=
  ⟨parseListing_renderListing, map_decodePins_assemble,
    fun k => (word_ofWord (encode (.seed k))).trans (joinWord_eq_or 0b01#2 k),
    fun c => (word_ofWord (encode (.byte c))).trans (joinWord_eq_or 0b10#2 c), word_ofWord (encode .hold)⟩

end Sys2Proof.Machine
end
